-- ==== Sys2Proof/Config.lean ====
section
/-! DEFINITION. The constants the source fixes (00_scope R5) and the type of the field table, the one parameter
of the block (00_scope R6, 42_extractor R104). The table's default value stands in Machine/FieldTable.lean. -/

namespace Sys2Proof.Config

/-- `MSG_LEN`: bytes in a message (R5). -/
abbrev msgLen : Nat := 4104
/-- `PAYLOAD_OFF`: offset of the first payload byte, also `HDR_LEN` (R5). -/
abbrev payloadOff : Nat := 6
/-- `PAYLOAD_LEN`: payload bytes, offsets 6 to 4101 (R5). -/
abbrev payloadLen : Nat := 4096
/-- `CK_OFF`: offset of the stored checksum byte (R5). -/
abbrev ckOff : Nat := 4102
/-- `END_OFF`: offset of the end marker (R5). -/
abbrev endOff : Nat := 4103
/-- `N_VOICES`: voice records in the payload (R5). -/
abbrev nVoices : Nat := 32
/-- `VOICE_SIZE`: bytes per voice record (R5). -/
abbrev voiceSize : Nat := 128
/-- `N_OPS`: operator records per voice (R5). -/
abbrev nOps : Nat := 6
/-- `NAME_LEN`: bytes of the voice name, the last ten of the record (R5, 42_extractor R110). -/
abbrev nameLen : Nat := 10
/-- `START_MARK`: required value of byte 0 (R5). -/
def startMark : BitVec 8 := 0xF0#8
/-- `VENDOR_MARK`: required value of byte 1 (R5). -/
def vendorMark : BitVec 8 := 0x43#8
/-- `SUBSTATUS`: required value of byte 2 (R5). -/
def substatus : BitVec 8 := 0x00#8
/-- `FORMAT_CODE`: required value of byte 3 (R5). -/
def formatCode : BitVec 8 := 0x09#8
/-- `SIZE_MSB`: required value of byte 4 (R5). -/
def sizeMsb : BitVec 8 := 0x20#8
/-- `SIZE_LSB`: required value of byte 5 (R5). -/
def sizeLsb : BitVec 8 := 0x00#8
/-- `END_MARK`: required value of byte 4103 (R5). -/
def endMark : BitVec 8 := 0xF7#8

/-- The position of a field, the triple {byte offset, bit offset, width} (42_extractor R104). -/
structure FieldPos where
  byte  : Nat
  bit   : Nat
  width : Nat
  deriving DecidableEq, Repr

/-- `FIELD_TABLE` (42_extractor R104): the offset of the operator block in the voice record, the bytes per
operator record, the 21 operator fields (offsets in the operator record) and the 29 voice-level fields (offsets in
the voice record). -/
structure FieldTable where
  opBase : Nat
  opSize : Nat
  opt    : Vector FieldPos 21
  vt     : Vector FieldPos 29
  deriving DecidableEq, Repr

end Sys2Proof.Config
end

