-- ==== Sys2Proof/Machine/FieldTable.lean ====
section
/-! DEFINITION. The default field table (42_extractor R111, R112), what every admissible table satisfies (R104), and
the field names (R117). The numbers of the default are PRESUMED: the spec marks them as general knowledge
(93_implementation_defined G1, G2; log entry 5). Which table a machine has is State.table (log entry 15). -/

namespace Sys2Proof.Machine

open Sys2Proof.Config

/-- The default operator fields, ids 0 to 20: `EG_R1` to `EG_R4`, `EG_L1` to `EG_L4`, `BP`, `LD`, `RD`, `LC`, `RC`,
`RS`, `DET`, `AMS`, `KVS`, `OL`, `MODE`, `FC`, `FF` (R111). -/
def optDefault : Vector FieldPos 21 :=
  #v[⟨0, 0, 8⟩, ⟨1, 0, 8⟩, ⟨2, 0, 8⟩, ⟨3, 0, 8⟩,
    ⟨4, 0, 8⟩, ⟨5, 0, 8⟩, ⟨6, 0, 8⟩, ⟨7, 0, 8⟩,
    ⟨8, 0, 8⟩, ⟨9, 0, 8⟩, ⟨10, 0, 8⟩, ⟨11, 0, 2⟩, ⟨11, 2, 2⟩,
    ⟨12, 0, 3⟩, ⟨12, 3, 4⟩, ⟨13, 0, 2⟩, ⟨13, 2, 3⟩, ⟨14, 0, 8⟩,
    ⟨15, 0, 1⟩, ⟨15, 1, 5⟩, ⟨16, 0, 8⟩]

/-- The default voice-level fields, ids 0 to 28: `PEG_R1` to `PEG_R4`, `PEG_L1` to `PEG_L4`, `ALG`, `FB`, `OKS`,
`LFO_RATE`, `LFO_DELAY`, `LFO_PMD`, `LFO_AMD`, `LFO_SYNC`, `LFO_WAVE`, `PMS`, `TRANSPOSE`, `NAME0` to `NAME9`
(R112). `PMS` has 4 bits (90_conflicts C5). -/
def vtDefault : Vector FieldPos 29 :=
  #v[⟨102, 0, 8⟩, ⟨103, 0, 8⟩, ⟨104, 0, 8⟩, ⟨105, 0, 8⟩,
    ⟨106, 0, 8⟩, ⟨107, 0, 8⟩, ⟨108, 0, 8⟩, ⟨109, 0, 8⟩,
    ⟨110, 0, 5⟩, ⟨111, 0, 3⟩, ⟨111, 3, 1⟩,
    ⟨112, 0, 8⟩, ⟨113, 0, 8⟩, ⟨114, 0, 8⟩, ⟨115, 0, 8⟩,
    ⟨116, 0, 1⟩, ⟨116, 1, 3⟩, ⟨116, 4, 4⟩, ⟨117, 0, 8⟩,
    ⟨118, 0, 8⟩, ⟨119, 0, 8⟩, ⟨120, 0, 8⟩, ⟨121, 0, 8⟩, ⟨122, 0, 8⟩,
    ⟨123, 0, 8⟩, ⟨124, 0, 8⟩, ⟨125, 0, 8⟩, ⟨126, 0, 8⟩, ⟨127, 0, 8⟩]

/-- `FIELD_TABLE` with its default value (00_scope R6: `OP_SIZE` 17, `OP_BASE` 0). -/
def fieldTable : FieldTable where
  opBase := 0
  opSize := 17
  opt    := optDefault
  vt     := vtDefault

/-- The least widths the ranges of R109 need, operator fields 0 to 20 (R104 item 6). -/
def optMinWidths : Vector Nat 21 :=
  #v[7, 7, 7, 7, 7, 7, 7, 7, 7, 7, 7, 2, 2, 3, 4, 2, 3, 7, 1, 5, 7]

/-- The least widths the ranges of R109 need, voice-level fields 0 to 28 (R104 item 6). The name is whole bytes. -/
def vtMinWidths : Vector Nat 29 :=
  #v[7, 7, 7, 7, 7, 7, 7, 7, 5, 3, 1, 7, 7, 7, 7, 1, 3, 4, 6, 8, 8, 8, 8, 8, 8, 8, 8, 8, 8]

/-- R104 item 1: the field has 1 to 8 bits and lies inside one byte. -/
abbrev insideByte (p : FieldPos) : Prop :=
  1 ≤ p.width ∧ p.width ≤ 8 ∧ p.bit + p.width ≤ 8

/-- The fields of a list that lie in the byte at offset `a`. -/
def fieldsIn (l : List FieldPos) (a : Nat) : List FieldPos := l.filter (fun p => p.byte = a)

/-- Two fields share no bit: they lie in different bytes, or one ends where the other begins or before. -/
abbrev apart (p q : FieldPos) : Prop :=
  p.byte ≠ q.byte ∨ p.bit + p.width ≤ q.bit ∨ q.bit + q.width ≤ p.bit

/-- Every field of a voice record at its byte in that record: the 29 voice-level fields, then the 21 fields of the
operator in each disk slot (R103, R104). -/
def voicePositions (T : FieldTable) : List FieldPos :=
  T.vt.toList ++ (List.range nOps).flatMap
    (fun d => T.opt.toList.map (fun p => { p with byte := T.opBase + T.opSize * d + p.byte }))

/-- R104 item 2: the two curve selectors, `LC` and `RC`, have 2 bits each in one byte of the operator record and leave 4
of its bits unused: they share no bit, and in no disk slot is another field in that byte, of the operator or of the
voice. -/
abbrev curveByte (T : FieldTable) : Prop :=
  T.opt[11].width = 2 ∧ T.opt[12].width = 2 ∧ T.opt[12].byte = T.opt[11].byte ∧ apart T.opt[11] T.opt[12]
  ∧ ∀ d ∈ List.range nOps,
      (fieldsIn (voicePositions T) (T.opBase + T.opSize * d + T.opt[11].byte)).length = 2

/-- The fields are exactly a 3-bit and a 4-bit one that share no bit, so a byte that holds them has 1 unused bit. -/
def threeAndFour : List FieldPos → Bool
  | [p, q] => decide (p.width + q.width = 7 ∧ (p.width = 3 ∨ p.width = 4) ∧ apart p q)
  | _ => false

/-- R104 item 3: some byte of the voice record holds exactly a 3-bit field and a 4-bit field, and 1 unused bit. That the
two may be any fields of the record, in any of its bytes, is log entry 14. -/
abbrev threeFourByte (T : FieldTable) : Prop :=
  ∃ p ∈ voicePositions T, threeAndFour (fieldsIn (voicePositions T) p.byte) = true

/-- What the source fixes of the field table: the six items of R104, in order. DESIGN CHOICE, safe (log entry 14):
of the fields that items 2 and 3 do not speak of, R104 does not say whether two may share bits, and here they may. That
no two fields of a table share a bit is `FieldsApart`, a condition of its own. -/
abbrev Admissible (T : FieldTable) : Prop :=
  ((∀ p ∈ T.opt.toList, insideByte p) ∧ (∀ p ∈ T.vt.toList, insideByte p))
  ∧ curveByte T
  ∧ threeFourByte T
  ∧ (∀ k : Fin 10, T.vt[19 + k.val] = ⟨118 + k.val, 0, 8⟩)
  ∧ ((∀ p ∈ T.opt.toList, p.byte < T.opSize) ∧ T.opBase + 6 * T.opSize ≤ 128
      ∧ (∀ p ∈ T.vt.toList, p.byte ≤ 127))
  ∧ ((∀ f : Fin 21, optMinWidths[f.val] ≤ T.opt[f.val].width)
      ∧ (∀ f : Fin 29, vtMinWidths[f.val] ≤ T.vt[f.val].width))

/-- No two fields of a voice record share a bit: what R116 item 5 takes of a table. An admissible table has it of the
fields of R104 items 2 and 3; of the others R104 does not say (log entry 14). -/
abbrev FieldsApart (T : FieldTable) : Prop := (voicePositions T).Pairwise apart

/-- The names of the operator fields, by id (R111, R117). -/
def opFieldNames : List String :=
  ["EG_R1", "EG_R2", "EG_R3", "EG_R4", "EG_L1", "EG_L2", "EG_L3", "EG_L4", "BP", "LD", "RD", "LC", "RC", "RS",
    "DET", "AMS", "KVS", "OL", "MODE", "FC", "FF"]

/-- The names of the voice-level fields, by id (R112, R117). -/
def voiceFieldNames : List String :=
  ["PEG_R1", "PEG_R2", "PEG_R3", "PEG_R4", "PEG_L1", "PEG_L2", "PEG_L3", "PEG_L4", "ALG", "FB", "OKS",
    "LFO_RATE", "LFO_DELAY", "LFO_PMD", "LFO_AMD", "LFO_SYNC", "LFO_WAVE", "PMS", "TRANSPOSE",
    "NAME0", "NAME1", "NAME2", "NAME3", "NAME4", "NAME5", "NAME6", "NAME7", "NAME8", "NAME9"]

end Sys2Proof.Machine
end

