-- ==== Sys2Proof/Word.lean ====
section
/-! DEFINITION. The word types of the block (00_scope R7): a byte, a command word, a register-port value. -/

namespace Sys2Proof

/-- A byte: 8 bits, bit 0 the least significant (00_scope R7, 20_memory R35). -/
abbrev Byte := BitVec 8

/-- A command word, `cmd[31:0]` (30_encoding R50). -/
abbrev Word := BitVec 32

/-- What the register port answers: a register zero-extended to 16 bits (10_state R14). -/
abbrev PortValue := BitVec 16

/-- A register number on the register port, 0 to 7 (10_state R14). -/
abbrev RegNumber := BitVec 3

end Sys2Proof
end

