-- ==== Sys2Proof/Machine/State.lean ====
section
/-! DEFINITION. The state of the block (10_state R10), its reset value (R24), the field table
(00_scope R6), the host's pending transactions (70_reset_and_hazards R156), and the reasons a step can stop. -/

namespace Sys2Proof.Machine

/-- The values of `STATUS` (10_state R16), codes 0 to 9 in this order. Codes 10 to 15 are never produced
(93_implementation_defined V4), so no constructor stands for them. Numeric codes: Machine/Flags.lean. -/
inductive Status where
  | idle
  | ok
  | errSize
  | errStart
  | errVendor
  | errSubstatus
  | errFormat
  | errSizefield
  | errEnd
  | errChecksum
  deriving DecidableEq, Repr

/-- The values of `FAULT` (10_state R17, 60_exceptions R131), codes 0 to 5 in this order. Codes 6 to 15 are never
produced (93_implementation_defined V5). -/
inductive Cause where
  | none
  | illegalCmd
  | badOperand
  | bufLocked
  | notValidated
  | notLoaded
  deriving DecidableEq, Repr

/-- One transaction of the host, between two commands (70_reset_and_hazards R156). -/
inductive HostEvent where
  /-- A 32-bit word on the command port. -/
  | command (w : Word)
  /-- A read of one register on the register port (10_state R14). -/
  | readReg (n : RegNumber)
  /-- The reset input (70_reset_and_hazards R150). -/
  | reset
  deriving DecidableEq, Repr

/-- The cells of `BUF` that have been written, each with its address, addresses strictly rising. A cell that is not
listed is unwritten and has no value (10_state R11). -/
abbrev Memory := List Host.Cell

/-- The canonical form: addresses strictly rising, all of them cells of `BUF` (20_memory R30). An unlisted cell has
no value, so no listed entry can equal what an unlisted one reads as. -/
abbrev Memory.wf (m : Memory) : Prop :=
  m.Pairwise (fun c d => c.1 < d.1) ∧ ∀ c ∈ m, c.1 < 4104

/-- The architectural state `(BUF, LEN, STATUS, FAULT, CKEXP, RES)` (10_state R10), and what the spec makes arguments
of the model, which a step can only find here: the field table, and the two ends of the host's ports, what it has yet
to present and what it has read. -/
structure State where
  /-- `BUF[0..4103]` (R11). -/
  buf    : Memory
  /-- `LEN`, 16 bits (R15). -/
  len    : BitVec 16
  /-- `STATUS` (R16). -/
  status : Status
  /-- `FAULT` (R17). -/
  fault  : Cause
  /-- `CKEXP`, 8 bits (R18). -/
  ckexp  : Byte
  /-- `RES`, 8 bits (R19). -/
  res    : Byte
  /-- `FIELD_TABLE`, the argument of the model (00_scope R6; log entry 15): no architectural state, read by `XVF` and
  `XOF`, written by nothing (70_reset_and_hazards R156). -/
  table  : Config.FieldTable
  /-- MODEL'S OWN (log entry 1): the host's pending transactions, the next one first. R13: the position in this
  list plays the part a program counter would. -/
  host   : List HostEvent
  /-- MODEL'S OWN (log entry 6): the values the register port has returned, the oldest first (R155). -/
  seen   : List PortValue
  deriving DecidableEq, Repr

/-- The state after reset (10_state R24, 70_reset_and_hazards R150), with the default field table (00_scope R6, log
entries 5 and 15; another table: `State.resetWith`). The host has nothing pending and has read
nothing (DESIGN CHOICE, log entries 1 and 6). -/
def State.reset : State where
  buf    := []
  len    := 0
  status := .idle
  fault  := .none
  ckexp  := 0
  res    := 0
  table  := fieldTable
  host   := []
  seen   := []

/-- Why the MODEL stops. These are not the block's faults: a fault of the block is a next state with `FAULT`
written (60_exceptions R134). No state reachable from reset meets either reason (20_memory R36). -/
inductive Fault where
  /-- Raised by a command that reads a cell of `BUF` no `LDB` has written. SAFE: the cell has no value
  (10_state R11, 93_implementation_defined V7; log entry 3). -/
  | unwrittenCell
  /-- Raised by an access to an address outside 0 to 4103. SAFE: no such cell exists (20_memory R30; log entry 4).
  Only with an inadmissible field table. -/
  | noSuchCell
  deriving DecidableEq, Repr

/-- Why the model gives an instruction no meaning. -/
inductive Refusal where
  /-- Raised by an arm of exec whose instruction has no meaning yet; no arm of this model does. SAFE. -/
  | notModelled (mnemonic : String)
  deriving DecidableEq, Repr

/-- What a step answers. -/
abbrev Result := Host.Outcome State Fault Refusal

end Sys2Proof.Machine
end

