-- ==== Sys2Proof/Machine/Flags.lean ====
section
/-! DEFINITION. The block has no arithmetic flags (10_state R21): its only status-like state is STATUS and FAULT.
Their numeric codes, and the phase, the block's only mode, a function of STATUS (R20). -/

namespace Sys2Proof.Machine

/-- The 4-bit code of a validation result (10_state R16). -/
def statusCode : Status → BitVec 4
  | .idle => 0
  | .ok => 1
  | .errSize => 2
  | .errStart => 3
  | .errVendor => 4
  | .errSubstatus => 5
  | .errFormat => 6
  | .errSizefield => 7
  | .errEnd => 8
  | .errChecksum => 9

/-- The 4-bit code of a fault cause (60_exceptions R131). -/
def causeCode : Cause → BitVec 4
  | .none => 0
  | .illegalCmd => 1
  | .badOperand => 2
  | .bufLocked => 3
  | .notValidated => 4
  | .notLoaded => 5

/-- The phases (10_state R20). -/
inductive Phase where
  | loading
  | valid
  | rejected
  deriving DecidableEq, Repr

/-- The phase of a `STATUS`: `IDLE` is LOADING, `OK` is VALID, 2 and above is REJECTED (R20). -/
def phaseOf (st : Status) : Phase :=
  if statusCode st = 0 then .loading
  else if statusCode st = 1 then .valid
  else .rejected

end Sys2Proof.Machine
end

