-- ==== Sys2Proof/Machine/Ops.lean ====
section
/-! DEFINITION. The operations over the buffer and the registers: reading and writing cells of BUF (20_memory R30,
R36, R38), raising a fault (60_exceptions R134), emptying the block (40_load_control R71), reset (R150), and the
register port (10_state R14). -/

namespace Sys2Proof.Machine

/-- `BUF[a]`: the byte of a written cell, nothing for an unwritten one (10_state R11). -/
def Memory.read : Memory → Nat → Option Byte
  | [], _ => none
  | c :: m, a => if c.1 = a then some c.2 else Memory.read m a

/-- `BUF[a] <- b` on the list of written cells; keeps the addresses strictly rising. -/
def Memory.write : Memory → Nat → Byte → Memory
  | [], a, b => [(a, b)]
  | c :: m, a, b =>
    if a < c.1 then (a, b) :: c :: m
    else if a = c.1 then (a, b) :: m
    else c :: Memory.write m a b

/-- `BUF[a .. a+n-1]`, when every one of these cells is written. -/
def Memory.bytes (m : Memory) : Nat → Nat → Option (List Byte)
  | _, 0 => some []
  | a, n + 1 =>
    match m.read a, m.bytes (a + 1) n with
    | some b, some bs => some (b :: bs)
    | _, _ => none

/-- A command's read of one cell (20_memory R36): `k` goes on with the byte. Outside the buffer there is no cell; an
unwritten cell has no value. -/
def State.readCell (s : State) (a : Nat) (k : Byte → Result) : Result :=
  if a < Config.msgLen then
    match s.buf.read a with
    | some b => k b
    | none => .fault .unwrittenCell
  else .fault .noSuchCell

/-- A command's read of the cells `a` to `a+n-1`, each written: `k` goes on with the bytes. -/
def State.readRange (s : State) (a n : Nat) (k : List Byte → Result) : Result :=
  if a + n ≤ Config.msgLen then
    match s.buf.bytes a n with
    | some bs => k bs
    | none => .fault .unwrittenCell
  else .fault .noSuchCell

/-- `raise <Fault>`: `FAULT` gets the cause and nothing else changes (60_exceptions R134). There is no return from
it but reset (R136). -/
def State.raise (s : State) (c : Cause) : State := { s with fault := c }

/-- The block ignores commands: `FAULT != 0` (60_exceptions R135). -/
def State.halted (s : State) : Bool := s.fault != .none

/-- `RES <- v` (10_state R19). -/
def State.putRes (s : State) (v : Byte) : State := { s with res := v }

/-- Every cell unwritten, `LEN`, `STATUS`, `CKEXP` and `RES` zero; `FAULT` is not written (40_load_control R71). -/
def State.emptied (s : State) : State :=
  { s with buf := [], len := 0, status := .idle, ckexp := 0, res := 0 }

/-- The reset input (70_reset_and_hazards R150): the block's whole state takes its reset value. The field table cannot
be changed (R156, log entry 15); the host's pending transactions and what it has read are the host's and stay (log
entry 9). -/
def State.takeReset (s : State) : State :=
  { State.reset with table := s.table, host := s.host, seen := s.seen }

/-- The state after reset of a block whose field table is `T` (00_scope R6). -/
def State.resetWith (T : Config.FieldTable) : State := { State.reset with table := T }

/-- What the register port answers for a register number (10_state R14): the register zero-extended to 16 bits;
numbers 5 to 7 read as 0. -/
def State.portRead (s : State) (n : RegNumber) : PortValue :=
  if n = 0 then (statusCode s.status).setWidth 16
  else if n = 1 then (causeCode s.fault).setWidth 16
  else if n = 2 then s.len
  else if n = 3 then s.ckexp.setWidth 16
  else if n = 4 then s.res.setWidth 16
  else 0

/-- A read on the register port: no effect on the block; the host has seen the value (10_state R14). -/
def State.takeRead (s : State) (n : RegNumber) : State :=
  { s with seen := s.seen ++ [s.portRead n] }

end Sys2Proof.Machine
end

