-- ==== Sys2Proof/Machine/Operands.lean ====
section
/-! DEFINITION. Operand forms: operand legality (30_encoding R53, in the words of the commands' own rules), the
addresses the commands form (20_memory R32, 40_load_control R72, 42_extractor R113, R114), and the bit-field
primitive (42_extractor R100). -/

namespace Sys2Proof.Machine

open Sys2Proof.Config

/-- `extract(b, o, w) = (b >> o) & (2^w - 1)` (42_extractor R100). R100 does not define it for `w = 0`, `w > 8` or
`o + w > 8`; DESIGN CHOICE, unsafe (log entry 16): this function has the formula's value there too. Only XVF,
XOF and the record decoders come to it, with an inadmissible field table: XBF refuses such operands (R105), and no entry of an admissible
table is such a position (R104 item 1). -/
def extract (b : Byte) (o w : Nat) : Byte := (b >>> o) &&& BitVec.ofNat 8 (2 ^ w - 1)

/-- The operands of an `XBF` that raise BAD_OPERAND (42_extractor R105). -/
def badRawField (addr : BitVec 13) (bitoff : BitVec 3) (width : BitVec 4) : Bool :=
  decide (addr.toNat > 4103) || decide (width.toNat = 0) || decide (width.toNat > 8)
    || decide (bitoff.toNat + width.toNat > 8)

/-- `voice_base(v) = 6 + 128 * v` (20_memory R32). -/
def voiceBase (v : Nat) : Nat := payloadOff + voiceSize * v

/-- The position of a voice-level field; nothing when `field > 28` (42_extractor R113). -/
def voiceFieldPos (T : FieldTable) (field : BitVec 6) : Option FieldPos :=
  if h : field.toNat > 28 then none else some (T.vt[field.toNat]'(by omega))

/-- The position of an operator field; nothing when `field > 20` (42_extractor R114). -/
def opFieldPos (T : FieldTable) (field : BitVec 6) : Option FieldPos :=
  if h : field.toNat > 20 then none else some (T.opt[field.toNat]'(by omega))

/-- The disk slot of a logical operator index, `5 - i` (42_extractor R103). -/
def diskSlot (i : Nat) : Nat := 5 - i

/-- The address of a voice-level field: `6 + 128*voice + VT[field].byte` (42_extractor R113). -/
def voiceFieldAddr (voice : BitVec 5) (p : FieldPos) : Nat := voiceBase voice.toNat + p.byte

/-- The address of an operator field: `6 + 128*voice + OP_BASE + OP_SIZE*slot + OPT[field].byte`
(42_extractor R114). -/
def opFieldAddr (T : FieldTable) (voice : BitVec 5) (opr : BitVec 3) (p : FieldPos) : Nat :=
  voiceBase voice.toNat + T.opBase + T.opSize * diskSlot opr.toNat + p.byte

/-- The cell an `LDB` that does not fault writes: `LEN` when `LEN < 4104`, none afterwards (40_load_control R72). -/
def loadAddr (s : State) : Option Nat := if s.len.toNat < msgLen then some s.len.toNat else none

/-- `if LEN < 0xFFFF then LEN <- LEN + 1`: the saturating count (40_load_control R72). -/
def countUp (len : BitVec 16) : BitVec 16 := if len.toNat < 0xFFFF then len + 1 else len

/-- What `XBF`, `XVF` and `XOF` share once their operands are legal: NOT_VALIDATED unless `STATUS == OK`, else
`RES <- zext_8(extract(BUF[a], bit, width))` (42_extractor R105, R113, R114). -/
def State.extractField (s : State) (a : Nat) (bit width : Nat) : Result :=
  if s.status ≠ .ok then .next (s.raise .notValidated)
  else s.readCell a (fun b => .next (s.putRes (extract b bit width)))

end Sys2Proof.Machine
end

