-- ==== Sys2Proof/Syntax.lean ====
section
/-! DEFINITION. The commands of the block, one constructor per row of spec/opcode_table.json (30_encoding R52),
each operand a field of the width its format gives it (30_encoding R51, R53). -/

namespace Sys2Proof

/-- The eight commands (30_encoding R52). Operands are the raw unsigned fields of R53, so an operand out of its
legal range is still a command: it is refused when executed (BAD_OPERAND), not when decoded. -/
inductive Instr where
  /-- `NOP` (40_load_control R70). -/
  | nop
  /-- `CLR` (40_load_control R71). -/
  | clr
  /-- `LDB imm8` (40_load_control R72). -/
  | ldb (imm8 : BitVec 8)
  /-- `VAL` (41_validator R86). -/
  | val
  /-- `CKS` (41_validator R88). -/
  | cks
  /-- `XBF addr, bitoff, width` (42_extractor R105). -/
  | xbf (addr : BitVec 13) (bitoff : BitVec 3) (width : BitVec 4)
  /-- `XVF voice, field` (42_extractor R113). -/
  | xvf (voice : BitVec 5) (field : BitVec 6)
  /-- `XOF voice, opr, field` (42_extractor R114). -/
  | xof (voice : BitVec 5) (opr : BitVec 3) (field : BitVec 6)
  deriving DecidableEq, Repr

end Sys2Proof
end

