-- ==== Sys2Proof/Machine/Extractor.lean ====
section
/-! DEFINITION. The extractor's commands: XBF, XVF, XOF (42_extractor R105, R113, R114). XVF and XOF use the field
table of the machine they run on (00_scope R6: State.table). -/

namespace Sys2Proof.Machine

open Sys2Proof.Config

/-- `XBF addr, bitoff, width` (R105). -/
def execXbf (addr : BitVec 13) (bitoff : BitVec 3) (width : BitVec 4) (s : State) : Result :=
  if badRawField addr bitoff width then .next (s.raise .badOperand)
  else s.extractField addr.toNat bitoff.toNat width.toNat

/-- `XVF voice, field` (R113). -/
def execXvf (voice : BitVec 5) (field : BitVec 6) (s : State) : Result :=
  match voiceFieldPos s.table field with
  | none => .next (s.raise .badOperand)
  | some p => s.extractField (voiceFieldAddr voice p) p.bit p.width

/-- `XOF voice, opr, field` (R114). -/
def execXof (voice : BitVec 5) (opr : BitVec 3) (field : BitVec 6) (s : State) : Result :=
  if opr.toNat > 5 then .next (s.raise .badOperand)
  else match opFieldPos s.table field with
    | none => .next (s.raise .badOperand)
    | some p => s.extractField (opFieldAddr s.table voice opr p) p.bit p.width

/-- The `XBF` of an address and a position. -/
def rawField (a : Nat) (p : FieldPos) : Instr :=
  .xbf (BitVec.ofNat 13 a) (BitVec.ofNat 3 p.bit) (BitVec.ofNat 4 p.width)

/-- The `XBF` that `XVF voice, field` is, with the address and position looked up; none for a field above 28
(R116 item 1). -/
def xvfAsXbf (T : FieldTable) (voice : BitVec 5) (field : BitVec 6) : Option Instr :=
  (voiceFieldPos T field).map (fun p => rawField (voiceFieldAddr voice p) p)

/-- The `XBF` that `XOF voice, opr, field` is, with the address and position looked up; none for operands out of range
(R116 item 1). -/
def xofAsXbf (T : FieldTable) (voice : BitVec 5) (opr : BitVec 3) (field : BitVec 6) : Option Instr :=
  if opr.toNat > 5 then none
  else (opFieldPos T field).map (fun p => rawField (opFieldAddr T voice opr p) p)

/-- The width of the field an extraction names; none for the other commands and for a field the table does not have
(R116 item 2). -/
def fieldWidth (T : FieldTable) : Instr → Option Nat
  | .xbf _ _ width => some width.toNat
  | .xvf _ field => (voiceFieldPos T field).map FieldPos.width
  | .xof _ _ field => (opFieldPos T field).map FieldPos.width
  | .nop => none
  | .clr => none
  | .ldb _ => none
  | .val => none
  | .cks => none

end Sys2Proof.Machine
end

