-- ==== Sys2Proof/Machine/Load.lean ====
section
/-! DEFINITION. The load and control commands: NOP, CLR, LDB (40_load_control R70, R71, R72). -/

namespace Sys2Proof.Machine

/-- `NOP`: do nothing (R70). -/
def execNop (s : State) : Result := .next s

/-- `CLR`: empty the buffer, back to LOADING (R71). -/
def execClr (s : State) : Result := .next s.emptied

/-- The message buffer and the count after an accepted `LDB` (R72). -/
def State.appended (s : State) (imm8 : Byte) : State :=
  match loadAddr s with
  | some a => { s with buf := s.buf.write a imm8, len := countUp s.len }
  | none => { s with len := countUp s.len }

/-- `LDB imm8`: append one byte; BUF_LOCKED unless `STATUS == IDLE` (R72). -/
def execLdb (imm8 : BitVec 8) (s : State) : Result :=
  if s.status ≠ .idle then .next (s.raise .bufLocked)
  else .next (s.appended imm8)

end Sys2Proof.Machine
end

