-- ==== Sys2Proof/Machine/Checks.lean ====
section
/-! DEFINITION. The validator's pure functions: checksum7 (41_validator R81), the marker checks and validate (R80,
R85), and the verdict of VAL as a function of LEN and BUF (R84, R86). -/

namespace Sys2Proof.Machine

open Sys2Proof.Config

/-- The sum of the bytes, each masked to its low 7 bits; a natural number, unbounded (41_validator R81). -/
def maskedSum : List Byte → Nat
  | [] => 0
  | b :: p => (b &&& 0x7F).toNat + maskedSum p

/-- `checksum7(p) = (-sum) mod 128` (41_validator R81). -/
def checksum7 (p : List Byte) : Byte := BitVec.ofNat 8 ((-(maskedSum p : Int)) % 128).toNat

/-- `raw[a] == v`, on all 8 bits (41_validator R80). -/
def byteIs (raw : List Byte) (a : Nat) (v : Byte) : Bool := raw[a]? == some v

/-- The payload `raw[6..4101]` (41_validator R81). -/
def payloadOf (raw : List Byte) : List Byte := (raw.drop payloadOff).take payloadLen

/-- `validate(raw)`, for `raw` of 4104 bytes (41_validator R85): the first failing check of R80 decides; the computed
checksum comes with it when check 7 was reached. The stored byte is compared whole (R83). -/
def validate (raw : List Byte) : Status × Option Byte :=
  if !byteIs raw 0 startMark then (.errStart, none)
  else if !byteIs raw 1 vendorMark then (.errVendor, none)
  else if !byteIs raw 2 substatus then (.errSubstatus, none)
  else if !byteIs raw 3 formatCode then (.errFormat, none)
  else if !byteIs raw 4 sizeMsb || !byteIs raw 5 sizeLsb then (.errSizefield, none)
  else if !byteIs raw endOff endMark then (.errEnd, none)
  else if !byteIs raw ckOff (checksum7 (payloadOf raw)) then
    (.errChecksum, some (checksum7 (payloadOf raw)))
  else (.ok, some (checksum7 (payloadOf raw)))

/-- What `VAL` does to `STATUS` and `CKEXP` (41_validator R84, R86): ERR_SIZE unless `LEN == 4104`, else the outcome of
`validate(BUF[0..4103])`, `CKEXP` being 0 when there is no checksum. -/
def State.applyVerdict (s : State) : Result :=
  if s.len ≠ 4104 then .next { s with status := .errSize, ckexp := 0 }
  else s.readRange 0 msgLen
    (fun raw => .next { s with status := (validate raw).1, ckexp := (validate raw).2.getD 0 })

end Sys2Proof.Machine
end

