-- ==== Sys2Proof/Machine/Validator.lean ====
section
/-! DEFINITION. The validator's commands: VAL, CKS (41_validator R86, R88). -/

namespace Sys2Proof.Machine

open Sys2Proof.Config

/-- `VAL`: validate the loaded message and record the verdict (R86). -/
def execVal (s : State) : Result := s.applyVerdict

/-- `CKS`: recompute the payload checksum into `RES`; NOT_LOADED unless `LEN == 4104` (R88). -/
def execCks (s : State) : Result :=
  if s.len ≠ 4104 then .next (s.raise .notLoaded)
  else s.readRange payloadOff payloadLen (fun p => .next (s.putRes (checksum7 p)))

end Sys2Proof.Machine
end

