-- ==== Sys2Proof/Machine/Dispatch.lean ====
section
/-! DEFINITION. exec: one arm per command, each a direct call of its meaning. -/

namespace Sys2Proof.Machine

def exec (i : Instr) (s : State) : Host.Outcome State Fault Refusal :=
  match i with
  | .nop => Sys2Proof.Machine.execNop s
  | .clr => Sys2Proof.Machine.execClr s
  | .ldb imm8 => Sys2Proof.Machine.execLdb imm8 s
  | .val => Sys2Proof.Machine.execVal s
  | .cks => Sys2Proof.Machine.execCks s
  | .xbf addr bitoff width => Sys2Proof.Machine.execXbf addr bitoff width s
  | .xvf voice field => Sys2Proof.Machine.execXvf voice field s
  | .xof voice opr field => Sys2Proof.Machine.execXof voice opr field s

end Sys2Proof.Machine
end

