-- ==== Sys2Proof/WellFormed.lean ====
section
/-! DEFINITION. Well-formed commands: every operand in its legal range, the column "legal values" of 30_encoding
R53. The meanings check operands by the pseudocode of their own rules (Machine/Operands.lean); that the two agree
is a statement, not a definition. -/

namespace Sys2Proof

/-- Every operand of the command is legal (30_encoding R53). -/
def Instr.wellFormed : Instr → Bool
  | .nop => true
  | .clr => true
  | .ldb _ => true
  | .val => true
  | .cks => true
  | .xbf addr bitoff width =>
    decide (addr.toNat ≤ 4103) && decide (1 ≤ width.toNat) && decide (width.toNat ≤ 8)
      && decide (bitoff.toNat + width.toNat ≤ 8)
  | .xvf _ field => decide (field.toNat ≤ 28)
  | .xof _ opr field => decide (opr.toNat ≤ 5) && decide (field.toNat ≤ 20)

end Sys2Proof
end

