-- ==== Sys2Proof/Decode.lean ====
section
/-! DEFINITION. Decoding a command word (30_encoding R57), the opcode table's rows (R52), the encoder of each format
(R51 and the encoding lines of the command rules), and the host's decodeTableWord. A command is one 32-bit
transaction of the command port, not bytes of a memory, so no byte order enters. -/

namespace Sys2Proof

/-- Why a word is no command. Both are ILLEGAL_CMD (60_exceptions R131). -/
inductive DecodeError where
  /-- Opcode 0x8 to 0xF (30_encoding R55). -/
  | reservedOpcode
  /-- A defined opcode with a 1 in a bit its format marks 0 (30_encoding R54). -/
  | reservedBits
  deriving DecidableEq, Repr

/-- `cmd[31:28]` (R50). -/
def opcodeOf (w : Word) : BitVec 4 := w.extractLsb' 28 4

/-- `imm8 = cmd[7:0]` (R53). -/
def imm8Of (w : Word) : BitVec 8 := w.extractLsb' 0 8

/-- `addr = cmd[12:0]` (R53). -/
def addrOf (w : Word) : BitVec 13 := w.extractLsb' 0 13

/-- `bitoff = cmd[18:16]` (R53). -/
def bitoffOf (w : Word) : BitVec 3 := w.extractLsb' 16 3

/-- `width = cmd[23:20]` (R53). -/
def widthOf (w : Word) : BitVec 4 := w.extractLsb' 20 4

/-- `voice = cmd[12:8]` (R53). -/
def voiceOf (w : Word) : BitVec 5 := w.extractLsb' 8 5

/-- `opr = cmd[18:16]` (R53). -/
def oprOf (w : Word) : BitVec 3 := w.extractLsb' 16 3

/-- `field = cmd[5:0]` (R53). -/
def fieldOf (w : Word) : BitVec 6 := w.extractLsb' 0 6

/-- `reserved_mask(op)` for the opcodes 0 to 7 (R57). -/
def reservedMask (op : BitVec 4) : Word :=
  if op = 2 then 0x0FFFFF00
  else if op = 5 then 0x0F08E000
  else if op = 6 then 0x0FFFE0C0
  else if op = 7 then 0x0FF8E0C0
  else 0x0FFFFFFF

/-- The command of a row with its operand fields, for an opcode below 8 whose reserved bits are 0 (R52, R53). -/
def commandOf (w : Word) : Instr :=
  if opcodeOf w = 0 then .nop
  else if opcodeOf w = 1 then .clr
  else if opcodeOf w = 2 then .ldb (imm8Of w)
  else if opcodeOf w = 3 then .val
  else if opcodeOf w = 4 then .cks
  else if opcodeOf w = 5 then .xbf (addrOf w) (bitoffOf w) (widthOf w)
  else if opcodeOf w = 6 then .xvf (voiceOf w) (fieldOf w)
  else .xof (voiceOf w) (oprOf w) (fieldOf w)

/-- `decode(cmd)`, total and in the order of R57. -/
def decode (w : Word) : Except DecodeError Instr :=
  if 8 ≤ (opcodeOf w).toNat then .error .reservedOpcode
  else if w &&& reservedMask (opcodeOf w) ≠ 0 then .error .reservedBits
  else .ok (commandOf w)

/-- A row of the opcode map (R52): a word selects it when `(cmd & mask) == pattern`. -/
structure OpcodeRow where
  mnemonic : String
  pattern  : Word
  mask     : Word
  deriving DecidableEq, Repr

/-- The row of a command in the opcode map, copied from the table of R52. -/
def opcodeRow : Instr → OpcodeRow
  | .nop => ⟨"NOP", 0x00000000, 0xFFFFFFFF⟩
  | .clr => ⟨"CLR", 0x10000000, 0xFFFFFFFF⟩
  | .ldb _ => ⟨"LDB", 0x20000000, 0xFFFFFF00⟩
  | .val => ⟨"VAL", 0x30000000, 0xFFFFFFFF⟩
  | .cks => ⟨"CKS", 0x40000000, 0xFFFFFFFF⟩
  | .xbf _ _ _ => ⟨"XBF", 0x50000000, 0xFF08E000⟩
  | .xvf _ _ => ⟨"XVF", 0x60000000, 0xFFFFE0C0⟩
  | .xof _ _ _ => ⟨"XOF", 0x70000000, 0xFFF8E0C0⟩

/-- The eight rows of the opcode map, in the table's order (R52). -/
def opcodeRows : List OpcodeRow :=
  [opcodeRow .nop, opcodeRow .clr, opcodeRow (.ldb 0), opcodeRow .val, opcodeRow .cks,
    opcodeRow (.xbf 0 0 0), opcodeRow (.xvf 0 0), opcodeRow (.xof 0 0 0)]

/-- The word selects the row: `(cmd & mask) == match` (R52). -/
def selectsRow (w : Word) (r : OpcodeRow) : Bool := w &&& r.mask == r.pattern

/-- The word of a command, from the encoding line of its rule (R70, R71, R72, R86, R88, R105, R113, R114). -/
def encode : Instr → Word
  | .nop => 0x00000000
  | .clr => 0x10000000
  | .ldb imm8 => 0x20000000 ||| imm8.setWidth 32
  | .val => 0x30000000
  | .cks => 0x40000000
  | .xbf addr bitoff width =>
    0x50000000 ||| width.setWidth 32 <<< 20 ||| bitoff.setWidth 32 <<< 16 ||| addr.setWidth 32
  | .xvf voice field => 0x60000000 ||| voice.setWidth 32 <<< 8 ||| field.setWidth 32
  | .xof voice opr field =>
    0x70000000 ||| opr.setWidth 32 <<< 16 ||| voice.setWidth 32 <<< 8 ||| field.setWidth 32

/-- The command whose `nbits` bits are `w`, numbered as spec/opcode_table.json numbers them (bit 0 the least
significant bit of the one 32-bit word); every bit from `nbits` on is 0. -/
def decodeTableWord (nbits w : Nat) : Option Instr :=
  match decode (BitVec.ofNat 32 (w % 2 ^ nbits)) with
  | .ok i => some i
  | .error _ => none

end Sys2Proof
end

