-- ==== Sys2Proof/Machine/Ports.lean ====
section
/-! DEFINITION. One turn of the host (70_reset_and_hazards R156): a command word with the common prologue of
60_exceptions R135, a register read, or reset. The execution of a decoded command is an argument (run), so that
Machine/Step.lean only ties it to exec. -/

namespace Sys2Proof.Machine

/-- `step(s, cmd) = if s.FAULT != 0 then s else exec(s, decode(cmd))`, an illegal word raising ILLEGAL_CMD
(60_exceptions R135, 30_encoding R54, R55). -/
def commandTurn (run : Instr → State → Result) (w : Word) (s : State) : Result :=
  if s.halted then .next s
  else match decode w with
    | .error _ => .next (s.raise .illegalCmd)
    | .ok i => run i s

/-- One transaction of the host on the block (R156). -/
def eventTurn (run : Instr → State → Result) (e : HostEvent) (s : State) : Result :=
  match e with
  | .command w => commandTurn run w s
  | .readReg n => .next (s.takeRead n)
  | .reset => .next s.takeReset

/-- The host's next transaction is taken from the front of its list; with none pending nothing happens (the block
never stops by itself, 70_reset_and_hazards R155; log entry 2). -/
def hostTurn (run : Instr → State → Result) (s : State) : Result :=
  match s.host with
  | [] => .next s
  | e :: rest => eventTurn run e { s with host := rest }

/-- The host presents one more transaction, ahead of all it has pending. -/
def State.present (s : State) (e : HostEvent) : State := { s with host := e :: s.host }

end Sys2Proof.Machine
end

