-- ==== Sys2Proof/Machine/Step.lean ====
section
/-! DEFINITION. One step of the machine: one transaction of the host, a command word being run by exec; and the host
side's withFetchWord. -/

namespace Sys2Proof.Machine

/-- One step: the host's next transaction (60_exceptions R135, 70_reset_and_hazards R156). -/
def step (s : State) : Host.Outcome State Fault Refusal := hostTurn exec s

/-- The state with the command word of `nbits` bits `w` as the host's next transaction (log entry 1): the block
fetches nothing, its commands come from the command port (10_state R13). -/
def State.withFetchWord (s : State) (nbits w : Nat) : State :=
  s.present (.command (BitVec.ofNat 32 (w % 2 ^ nbits)))

end Sys2Proof.Machine
end

