-- ==== Sys2Proof/Machine/Instance.lean ====
section
/-! DEFINITION. The machine for any field table: FIELD_TABLE is an argument of the model (00_scope R6, 92_eei_decisions
D12). Sys2Proof.core is the machine with the default table. -/

namespace Sys2Proof.Machine

/-- The machine whose field table is `T`: the same step, from the reset state that holds `T` (00_scope R6). -/
def coreWith (T : Config.FieldTable) : Host.Core := { Sys2Proof.core with reset := State.resetWith T }

end Sys2Proof.Machine
end

