-- ==== Sys2Proof/Machine/Pseudo.lean ====
section
/-! DEFINITION. The pseudo-commands and their expansions (30_encoding R60). They have no encoding of their own. -/

namespace Sys2Proof.Machine

/-- The five pseudo-commands (R60). -/
inductive Pseudo where
  | rdb (addr : BitVec 13)
  | xod (voice : BitVec 5) (slot : BitVec 3) (field : BitVec 6)
  | xnm (voice : BitVec 5) (k : BitVec 4)
  | load (bytes : List Byte)
  | loadmsg (m : List Byte)
  deriving DecidableEq, Repr

/-- The commands a pseudo-command stands for; none when `slot > 5` or `k > 9` (R60). -/
def expand : Pseudo → Option (List Instr)
  | .rdb addr => some [.xbf addr 0 8]
  | .xod voice slot field => if slot.toNat ≤ 5 then some [.xof voice (5 - slot) field] else none
  | .xnm voice k => if k.toNat ≤ 9 then some [.xvf voice (19 + k.setWidth 6)] else none
  | .load bytes => some (bytes.map Instr.ldb)
  | .loadmsg m => some (.clr :: m.map Instr.ldb)

end Sys2Proof.Machine
end

