-- ==== Sys2Proof/Machine/Records.lean ====
section
/-! DEFINITION. The record decoders as pure functions over bytes (42_extractor R106, R107), for any field table. The
commands do not use them: that XVF and XOF agree with them (R113, R114) is a statement. -/

namespace Sys2Proof.Machine

open Sys2Proof.Config

/-- The value of a field in a record: `extract(s[byte], bit, width)`; nothing when the position lies outside the
record, which no admissible table has (R104 item 5). -/
def fieldAt (rec : List Byte) (p : FieldPos) : Option Byte :=
  match rec[p.byte]? with
  | some b => some (extract b p.bit p.width)
  | none => none

/-- The values of a list of fields in a record, in order. -/
def fieldsAt (rec : List Byte) : List FieldPos → Option (List Byte)
  | [] => some []
  | p :: ps =>
    match fieldAt rec p, fieldsAt rec ps with
    | some v, some vs => some (v :: vs)
    | _, _ => none

/-- `decodeOperator(s)`: the 21 numbers of one operator record, by field id (R106). -/
def decodeOperator (T : FieldTable) (rec : List Byte) : Option (List Byte) := fieldsAt rec T.opt.toList

/-- The operator record at disk slot `d` of a voice record (R107). -/
def operatorSlot (T : FieldTable) (rec : List Byte) (d : Nat) : List Byte :=
  (rec.drop (T.opBase + T.opSize * d)).take T.opSize

/-- A decoded voice (R107): the six operators by logical index, and the 29 voice-level values by field id. -/
structure Voice where
  op : List (List Byte)
  g  : List Byte
  deriving DecidableEq, Repr

/-- The operators of logical indices `i` to `i+n-1`, operator `i` from disk slot `5 - i` (R103, R107). -/
def decodeOperators (T : FieldTable) (rec : List Byte) : Nat → Nat → Option (List (List Byte))
  | _, 0 => some []
  | i, n + 1 =>
    match decodeOperator T (operatorSlot T rec (diskSlot i)), decodeOperators T rec (i + 1) n with
    | some o, some os => some (o :: os)
    | _, _ => none

/-- `decodeVoice(s)`, for `s` of 128 bytes (R107). -/
def decodeVoice (T : FieldTable) (rec : List Byte) : Option Voice :=
  match decodeOperators T rec 0 nOps, fieldsAt rec T.vt.toList with
  | some op, some g => some ⟨op, g⟩
  | _, _ => none

/-- The voice record of voice `v` of a message, `raw[voice_base(v) .. voice_base(v) + 127]` (R107, 20_memory R32). -/
def voiceRecord (raw : List Byte) (v : Nat) : List Byte := (raw.drop (voiceBase v)).take voiceSize

end Sys2Proof.Machine
end

