-- ==== Sys2Proof/Safety.lean ====
section
/-! DEFINITION. What counts as a sound state and a successful run, in the words of 10_state R23 and
70_reset_and_hazards R155, and the laws of the extractions (42_extractor R116). -/

namespace Sys2Proof.Machine

/-- The invariants of every reachable state (10_state R23), in its order, with the canonical form of the buffer and,
for `STATUS` other than `IDLE`, that the recorded verdict is the one `VAL` gives (41_validator R86). R23 item 4's
bounds on `STATUS` and `FAULT` are their types; item 5 is about two states and is a statement. `resZero` is no item of
R23 (log entry 13): RES is written only by commands that need a whole message (R19, R36), so before one is loaded it is 0.
`tableAdmissible`: the field table is one that R104 admits. -/
structure State.Inv (s : State) : Prop where
  bufWf : s.buf.wf
  written : ∀ a, (s.buf.read a).isSome = decide (a < min s.len.toNat 4104)
  okVerdict : s.status = .ok → s.len = 4104
    ∧ (∃ raw, s.buf.bytes 0 4104 = some raw ∧ (validate raw).1 = .ok) ∧ s.buf.read 4102 = some s.ckexp
  badChecksum : s.status = .errChecksum → s.len = 4104
    ∧ (∃ p, s.buf.bytes 6 4096 = some p ∧ s.ckexp = checksum7 p) ∧ s.buf.read 4102 ≠ some s.ckexp
  ckexpLow : s.ckexp.toNat ≤ 0x7F
  ckexpZero : s.status ≠ .ok → s.status ≠ .errChecksum → s.ckexp = 0
  verdictStands : s.status ≠ .idle → s.applyVerdict = .next s
  resZero : s.len.toNat < 4104 → s.res = 0
  tableAdmissible : Admissible s.table

/-- The two states are the same state of the block: the tuple of 10_state R10 is the same. -/
abbrev State.sameBlock (s t : State) : Prop :=
  s.buf = t.buf ∧ s.len = t.len ∧ s.status = t.status ∧ s.fault = t.fault ∧ s.ckexp = t.ckexp ∧ s.res = t.res

/-- No command has faulted since reset: what a claim about results takes and shows (70_reset_and_hazards R155). -/
abbrev State.faultFree (s : State) : Prop := s.fault = .none

/-- The commands that write RES: the result commands (10_state R19). -/
def writesRes : Instr → Bool
  | .cks => true
  | .xbf _ _ _ => true
  | .xvf _ _ => true
  | .xof _ _ _ => true
  | .nop => false
  | .clr => false
  | .ldb _ => false
  | .val => false

/-- The extractions: XBF, XVF, XOF (42_extractor). -/
def isExtraction : Instr → Bool
  | .xbf _ _ _ => true
  | .xvf _ _ => true
  | .xof _ _ _ => true
  | .nop => false
  | .clr => false
  | .ldb _ => false
  | .val => false
  | .cks => false

/-- The six properties of the extractions, of the machine in a state with its own field table (42_extractor R116), in
the rule's order. A result is that of a command that did not fault: `t.fault = .none`. -/
structure ExtractionLaws (s : State) : Prop where
  /-- Item 1: a named extraction has the effect of the raw one, address and position looked up. -/
  namedIsRaw :
    (∀ (voice : BitVec 5) (field : BitVec 6) (i : Instr), xvfAsXbf s.table voice field = some i →
      exec (.xvf voice field) s = exec i s)
    ∧ (∀ (voice : BitVec 5) (opr : BitVec 3) (field : BitVec 6) (i : Instr),
      xofAsXbf s.table voice opr field = some i → exec (.xof voice opr field) s = exec i s)
  /-- Item 2: a result is below `2^width` of its field, `RES[7:width] == 0`. -/
  belowWidth : ∀ (i : Instr) (w : Nat) (t : State), fieldWidth s.table i = some w → exec i s = .next t →
    t.fault = .none → t.res.toNat < 2 ^ w ∧ ∀ k, w ≤ k → t.res.getLsbD k = false
  /-- Item 3: an extraction changes only RES, and repeating it gives the same. -/
  onlyRes : ∀ (i : Instr) (t : State), isExtraction i = true → exec i s = .next t → t.fault = .none →
    t = { s with res := t.res } ∧ exec i t = .next t
  /-- Item 3: the order of extractions does not matter. -/
  anyOrder : ∀ (i j : Instr) (t u : State), isExtraction i = true → isExtraction j = true →
    exec i s = .next t → t.fault = .none → exec j s = .next u → u.fault = .none → exec j t = .next u
  /-- Item 4: `XOF v, 0, f` reads the operator record at disk slot 5 of voice `v`. -/
  operatorMapping : ∀ (voice : BitVec 5) (field : BitVec 6) (p : Config.FieldPos) (b : Byte),
    opFieldPos s.table field = some p → s.status = .ok →
    s.buf.read (voiceBase voice.toNat + s.table.opBase + s.table.opSize * 5 + p.byte) = some b →
    exec (.xof voice 0 field) s = .next { s with res := extract b p.bit p.width }
  /-- Item 5: in a table whose fields share no bit (log entry 14), changing the bits of one field of a byte leaves the
  value of every other. -/
  independent : FieldsApart s.table → ∀ (voice : BitVec 5) (m n : Nat) (p q : Config.FieldPos) (b c : Byte), m ≠ n →
    (voicePositions s.table)[m]? = some p → (voicePositions s.table)[n]? = some q → p.byte = q.byte →
    s.status = .ok → s.buf.read (voiceBase voice.toNat + p.byte) = some b →
    (∀ k, (k < q.bit ∨ q.bit + q.width ≤ k) → b.getLsbD k = c.getLsbD k) →
    ∃ v : Byte, exec (rawField (voiceBase voice.toNat + p.byte) p) s = .next { s with res := v }
      ∧ exec (rawField (voiceBase voice.toNat + p.byte) p)
          { s with buf := s.buf.write (voiceBase voice.toNat + p.byte) c }
        = .next { s with buf := s.buf.write (voiceBase voice.toNat + p.byte) c, res := v }
  /-- Item 6: with legal operands an extraction never faults in the VALID phase, and its only fault is NOT_VALIDATED. -/
  neverFaults : ∀ i : Instr, isExtraction i = true → i.wellFormed = true →
    (s.status = .ok → ∃ v : Byte, exec i s = .next { s with res := v })
    ∧ (∀ t : State, exec i s = .next t → t.fault = s.fault ∨ t.fault = .notValidated)

end Sys2Proof.Machine
end

