-- ==== Sys2Proof/Certificates/Slice0/Obligations.lean ====
section
/-! DEFINITION. The statements for the provers, from the numbered rules of spec/. -/

open Sys2Proof Sys2Proof.Machine Sys2Proof.Config

/-! ## Encoding -/

/-- The words 95_test_vectors writes out decode to the commands it names (one or more per command). -/
def Obligations.SampleWordsDecode : Prop :=
  decode 0x00000000 = .ok .nop ∧ decode 0x10000000 = .ok .clr ∧ decode 0x200000F0 = .ok (.ldb 0xF0)
  ∧ decode 0x30000000 = .ok .val ∧ decode 0x40000000 = .ok .cks
  ∧ decode 0x50220011 = .ok (.xbf 17 2 2) ∧ decode 0x504301E7 = .ok (.xbf 487 3 4)
  ∧ decode 0x60001F1C = .ok (.xvf 31 28) ∧ decode 0x7000030E = .ok (.xof 3 0 14)
  ∧ decode 0x80000000 = .error .reservedOpcode ∧ decode 0x60010000 = .error .reservedBits

/-- Every command is decoded from its own word, every operand at every value its field can hold
(30_encoding sections 2 to 5). -/
def Obligations.DecodeOfEncode : Prop := ∀ i : Instr, decode (encode i) = .ok i

/-- A word that decodes is the word of the command it decodes to: no two words mean one command
(30_encoding sections 2 to 5). -/
def Obligations.EncodeOfDecode : Prop := ∀ (w : Word) (i : Instr), decode w = .ok i → encode i = w

/-- Decoding by opcode and reserved mask (30_encoding section 5) and selecting a row of the opcode map by mask and
match (section 3) agree: a word decodes exactly when it selects a row, the row is its command's, and it selects no
other. -/
def Obligations.DecodeAgreesWithOpcodeMap : Prop :=
  ∀ w : Word,
    (∀ i, decode w = .ok i → selectsRow w (opcodeRow i) = true
      ∧ ∀ r ∈ opcodeRows, selectsRow w r = true → r = opcodeRow i)
    ∧ (∀ r ∈ opcodeRows, selectsRow w r = true → ∃ i, decode w = .ok i ∧ opcodeRow i = r)

/-- R53: the operands of a decoded command are the unsigned numbers at their bit positions; an operand out of its
legal range raises BAD_OPERAND, and legal operands never do. -/
def Obligations.OperandFields : Prop :=
  (∀ (w : Word) (b : BitVec 8), decode w = .ok (.ldb b) → b.toNat = w.toNat % 2 ^ 8)
  ∧ (∀ (w : Word) (a : BitVec 13) (o : BitVec 3) (n : BitVec 4), decode w = .ok (.xbf a o n) →
      a.toNat = w.toNat % 2 ^ 13 ∧ o.toNat = w.toNat / 2 ^ 16 % 2 ^ 3 ∧ n.toNat = w.toNat / 2 ^ 20 % 2 ^ 4)
  ∧ (∀ (w : Word) (v : BitVec 5) (f : BitVec 6), decode w = .ok (.xvf v f) →
      v.toNat = w.toNat / 2 ^ 8 % 2 ^ 5 ∧ f.toNat = w.toNat % 2 ^ 6)
  ∧ (∀ (w : Word) (v : BitVec 5) (p : BitVec 3) (f : BitVec 6), decode w = .ok (.xof v p f) →
      v.toNat = w.toNat / 2 ^ 8 % 2 ^ 5 ∧ p.toNat = w.toNat / 2 ^ 16 % 2 ^ 3 ∧ f.toNat = w.toNat % 2 ^ 6)
  ∧ (∀ (i : Instr) (s : State), i.wellFormed = false → exec i s = .next { s with fault := .badOperand })
  ∧ (∀ (i : Instr) (s t : State), i.wellFormed = true → s.fault ≠ .badOperand → exec i s = .next t →
      t.fault ≠ .badOperand)

/-- R54 and R55: a word with opcode 8 to 15, or with a defined opcode and a 1 in a bit its row's mask fixes below the
opcode, raises ILLEGAL_CMD in an unfaulted block and does nothing else. -/
def Obligations.IllegalWordsFault : Prop :=
  ∀ (s : State) (w : Word) (rest : List HostEvent), s.host = .command w :: rest → s.fault = .none →
    (8 ≤ w.toNat / 2 ^ 28
      ∨ ∃ r ∈ opcodeRows, w.toNat / 2 ^ 28 = r.pattern.toNat / 2 ^ 28 ∧ w &&& (r.mask &&& 0x0FFFFFFF) ≠ 0) →
    step s = .next { s with host := rest, fault := .illegalCmd }

/-! ## The step, reset, the register port -/

/-- The host's next command, decoded, is run by exec on the block with that transaction taken from the host's list;
so is a word placed by withFetchWord, on the state itself. -/
def Obligations.StepRunsDecodedCommand : Prop :=
  (∀ (s : State) (w : Word) (rest : List HostEvent) (i : Instr),
    s.host = .command w :: rest → s.fault = .none → decode w = .ok i →
    step s = exec i { s with host := rest })
  ∧ (∀ (s : State) (w : Word) (i : Instr), s.fault = .none → decode w = .ok i →
    step (s.withFetchWord 32 w.toNat) = exec i s)

/-- R135: a faulted block ignores every command word, however many come, and keeps FAULT; its registers stay
readable and hold what they held when the fault was raised. -/
def Obligations.FaultedBlockIgnoresCommands : Prop :=
  (∀ (s : State) (w : Word) (rest : List HostEvent), s.fault ≠ .none → s.host = .command w :: rest →
    step s = .next { s with host := rest })
  ∧ (∀ (ws : List Word) (s : State) (rest : List HostEvent), s.fault ≠ .none →
      s.host = ws.map HostEvent.command ++ rest →
      core.run ws.length s = .next { s with host := rest })
  ∧ (∀ (s : State) (n : RegNumber) (rest : List HostEvent), s.host = .readReg n :: rest →
      step s = .next { s with host := rest, seen := s.seen ++ [s.portRead n] })
  ∧ (∀ (s : State) (c : Cause) (n : RegNumber), n ≠ 1 → (s.raise c).portRead n = s.portRead n)

/-- R136: nothing but reset clears FAULT or changes its cause once it is set, over all commands and register reads;
a validation result is left by CLR. -/
def Obligations.OnlyResetClearsFault : Prop :=
  (∀ s t : State, step s = .next t → s.fault ≠ .none → t.fault = s.fault ∨ s.host.head? = some .reset)
  ∧ (∀ s : State, ∃ t, exec .clr s = .next t ∧ t.status = .idle)

/-- R24 and R150: reset empties the buffer and zeroes the five registers, whatever the state; it is the only event
that clears FAULT; CLR in an unfaulted block gives the same state of the block. -/
def Obligations.ResetState : Prop :=
  (∀ (s : State) (rest : List HostEvent), s.host = .reset :: rest → ∃ t, step s = .next t ∧ t.sameBlock State.reset)
  ∧ ((∀ a, State.reset.buf.read a = none) ∧ State.reset.len = 0 ∧ State.reset.status = .idle
      ∧ State.reset.fault = .none ∧ State.reset.ckexp = 0 ∧ State.reset.res = 0)
  ∧ (∀ s t : State, step s = .next t → s.fault ≠ .none → t.fault = .none → s.host.head? = some .reset)
  ∧ (∀ s : State, s.fault = .none → ∃ t, exec .clr s = .next t ∧ t.sameBlock State.reset)

/-- THE MODEL'S CHOICE, log entries 9 and 15: a reset takes its own transaction from the host's list and leaves the rest
of the list, what the host has read, and the field table. R24 and R150 say nothing of these. -/
def Obligations.ResetKeepsHostSide : Prop :=
  ∀ (s : State) (rest : List HostEvent), s.host = .reset :: rest →
    ∃ t, step s = .next t ∧ t.host = rest ∧ t.seen = s.seen ∧ t.table = s.table

/-- No step changes the field table (70_reset_and_hazards section 5: the host cannot), and no command but XVF and XOF
reads it: with another table they leave what they left, that table in its place (10_state section 1). That State holds
the table is log entry 15. -/
def Obligations.FieldTableIsAnArgument : Prop :=
  (∀ s t : State, step s = .next t → t.table = s.table)
  ∧ (∀ (i : Instr) (s t : State) (T : FieldTable), (∀ voice field, i ≠ .xvf voice field) →
      (∀ voice opr field, i ≠ .xof voice opr field) → exec i s = .next t →
      exec i { s with table := T } = .next { t with table := T })
  ∧ (∀ (T : FieldTable) (n : Nat) (es : List HostEvent) (t : State),
      (coreWith T).run n { State.resetWith T with host := es } = .next t → t.table = T)

/-- R14: a read on the register port answers the register zero-extended to 16 bits (0 for the numbers 5 to 7) and
changes nothing in the block, the codes being those of R16 and R131. Where CKEXP keeps bit 7 at 0, so does the
answer. -/
def Obligations.RegisterPort : Prop :=
  ∀ (s : State) (n : RegNumber) (rest : List HostEvent), s.host = .readReg n :: rest →
    ∃ v : PortValue, step s = .next { s with host := rest, seen := s.seen ++ [v] }
      ∧ (n = 0 → v.toNat = (statusCode s.status).toNat)
      ∧ (n = 1 → v.toNat = (causeCode s.fault).toNat)
      ∧ (n = 2 → v = s.len)
      ∧ (n = 3 → v.toNat = s.ckexp.toNat ∧ (s.ckexp.toNat ≤ 0x7F → v.toNat / 2 ^ 7 = 0))
      ∧ (n = 4 → v.toNat = s.res.toNat)
      ∧ (5 ≤ n.toNat → v = 0)

/-! ## Load and control -/

/-- R70: NOP is the word 0 and changes nothing; a word with opcode 0 and any other bit set is no NOP and raises ILLEGAL_CMD. -/
def Obligations.NopChangesNothing : Prop :=
  (∀ w : Word, decode w = .ok .nop ↔ w = 0x00000000)
  ∧ (∀ s : State, exec .nop s = .next s)
  ∧ (∀ (s : State) (w : Word) (rest : List HostEvent), s.host = .command w :: rest → s.fault = .none →
      w.toNat / 2 ^ 28 = 0 → w ≠ 0 → step s = .next { s with host := rest, fault := .illegalCmd })

/-- R71: CLR makes every cell unwritten and zeroes LEN, STATUS, CKEXP and RES, in every phase; it does not write
FAULT; in an unfaulted block the result is the reset state; in a sound LOADING block with LEN 0 it changes nothing;
and no other command leaves VALID or REJECTED. -/
def Obligations.ClrEmptiesBlock : Prop :=
  (∀ w : Word, decode w = .ok .clr ↔ w = 0x10000000)
  ∧ (∀ s : State, ∃ t, exec .clr s = .next t
      ∧ t = { s with buf := t.buf, len := 0, status := .idle, ckexp := 0, res := 0 }
      ∧ (∀ a, t.buf.read a = none)
      ∧ (s.fault = .none → t.sameBlock State.reset))
  ∧ (∀ s : State, s.Inv → phaseOf s.status = .loading → s.len = 0 → exec .clr s = .next s)
  ∧ (∀ (i : Instr) (s t : State), s.Inv → exec i s = .next t → phaseOf s.status ≠ .loading →
      phaseOf t.status ≠ phaseOf s.status → i = .clr)

/-- R72: LDB raises BUF_LOCKED unless STATUS is IDLE; otherwise it stores its byte at offset LEN when LEN < 4104,
drops it from there on, and counts it, the count saturating at 65535; it changes nothing else. -/
def Obligations.LdbAppendsByte : Prop :=
  ∀ (b : BitVec 8) (s : State),
    (∀ w : Word, decode w = .ok (.ldb b) ↔ w = 0x20000000 ||| b.setWidth 32) ∧
    (s.status ≠ .idle → exec (.ldb b) s = .next { s with fault := .bufLocked })
    ∧ (s.status = .idle → ∃ t, exec (.ldb b) s = .next t
        ∧ t = { s with buf := t.buf, len := t.len }
        ∧ t.len.toNat = min (s.len.toNat + 1) 65535
        ∧ ∀ a, t.buf.read a = if a = s.len.toNat ∧ s.len.toNat < 4104 then some b else s.buf.read a)

/-- The frame of LDB: only BUF, LEN and (when it faults) FAULT may change; every cell but the one stored to reads as
before, the address stored to being the meaning's own loadAddr, and none when the buffer is locked. -/
def Obligations.LdbFrame : Prop :=
  ∀ (b : BitVec 8) (s t : State), exec (.ldb b) s = .next t →
    t = { s with buf := t.buf, len := t.len, fault := t.fault }
    ∧ (s.status ≠ .idle → t.len = s.len ∧ ∀ a, t.buf.read a = s.buf.read a)
    ∧ (s.status = .idle → t.fault = s.fault
        ∧ (∀ x, loadAddr s = some x → ∀ a, a ≠ x → t.buf.read a = s.buf.read a)
        ∧ (loadAddr s = none → ∀ a, t.buf.read a = s.buf.read a))

/-- The frame of NOP, CLR and VAL: FAULT, the host's list and what it has seen are unchanged; NOP and VAL leave BUF,
LEN and RES, VAL writing STATUS and CKEXP alone. -/
def Obligations.ControlFrames : Prop :=
  (∀ s t : State, exec .nop s = .next t → t = s)
  ∧ (∀ s t : State, exec .clr s = .next t → t.fault = s.fault ∧ t.host = s.host ∧ t.seen = s.seen)
  ∧ (∀ s t : State, exec .val s = .next t →
      t = { s with status := t.status, ckexp := t.ckexp } ∧ ∀ a, t.buf.read a = s.buf.read a)

/-- From an empty, unlocked, unfaulted block, a message of any length sent byte by byte lies in BUF in arrival order,
its first 4104 bytes kept and every byte counted up to 65535; nothing else changes (40_load_control section 4). -/
def Obligations.LoadingStoresInArrivalOrder : Prop :=
  ∀ (m : List Byte) (s : State) (rest : List HostEvent),
    s.status = .idle → s.fault = .none → s.len = 0 → s.buf = [] →
    s.host = m.map (fun b => HostEvent.command (encode (.ldb b))) ++ rest →
    ∃ t : State, core.run m.length s = .next t
      ∧ t = { s with buf := t.buf, len := t.len, host := rest }
      ∧ t.len.toNat = min m.length 65535
      ∧ ∀ a, t.buf.read a = (m.take 4104)[a]?

/-- From an empty, unlocked, unfaulted block, loading a message of any length and then VAL leaves the message's own
verdict: ERR_SIZE when its length is not 4104, else what validate says of it, with the computed checksum in CKEXP
(40_load_control section 4, 41_validator sections 3 to 5). -/
def Obligations.LoadThenValGivesVerdict : Prop :=
  ∀ (m : List Byte) (s : State) (rest : List HostEvent),
    s.status = .idle → s.fault = .none → s.len = 0 → s.buf = [] →
    s.host = m.map (fun b => HostEvent.command (encode (.ldb b))) ++ HostEvent.command (encode .val) :: rest →
    ∃ t : State, core.run (m.length + 1) s = .next t ∧ t.fault = .none ∧ t.res = s.res ∧ t.host = rest
      ∧ (m.length ≠ 4104 → t.status = .errSize ∧ t.ckexp = 0)
      ∧ (m.length = 4104 → t.status = (validate m).1 ∧ t.ckexp = (validate m).2.getD 0)

/-! ## The validator -/

/-- R84 and R86: VAL records ERR_SIZE when LEN is not 4104, else the outcome of validate on the 4104 cells, CKEXP
being 0 when there is no checksum, and writes nothing else; with every cell written it always completes; afterwards
STATUS is never IDLE. -/
def Obligations.ValRecordsVerdict : Prop :=
  (∀ w : Word, decode w = .ok .val ↔ w = 0x30000000)
  ∧ (∀ s : State, s.len ≠ 4104 → exec .val s = .next { s with status := .errSize, ckexp := 0 })
  ∧ (∀ (s : State) (raw : List Byte), s.len = 4104 → s.buf.bytes 0 4104 = some raw →
      exec .val s = .next { s with status := (validate raw).1, ckexp := (validate raw).2.getD 0 })
  ∧ (∀ s : State, s.len = 4104 → (∀ a, a < 4104 → (s.buf.read a).isSome = true) → ∃ raw,
      s.buf.bytes 0 4104 = some raw ∧ raw.length = 4104 ∧ ∀ a, a < 4104 → raw[a]? = s.buf.read a)
  ∧ (∀ s t : State, exec .val s = .next t → t.status ≠ .idle)

/-- VAL is idempotent: after a VAL, from any state, another changes nothing (the inference of 41_validator section 5). -/
def Obligations.ValIsIdempotent : Prop :=
  ∀ s t : State, exec .val s = .next t → exec .val t = .next t

/-- R80 and R85: the seven checks in their order on a message of 4104 bytes: the first that fails decides the result,
whatever the later ones would say, and a checksum is returned exactly when check 7 is reached. -/
def Obligations.ValidateFirstFailureWins : Prop :=
  ∀ raw : List Byte, raw.length = 4104 →
    (raw[0]? ≠ some 0xF0#8 → validate raw = (.errStart, none))
    ∧ (raw[0]? = some 0xF0#8 → raw[1]? ≠ some 0x43#8 → validate raw = (.errVendor, none))
    ∧ (raw[0]? = some 0xF0#8 → raw[1]? = some 0x43#8 → raw[2]? ≠ some 0x00#8 → validate raw = (.errSubstatus, none))
    ∧ (raw[0]? = some 0xF0#8 → raw[1]? = some 0x43#8 → raw[2]? = some 0x00#8 → raw[3]? ≠ some 0x09#8 →
        validate raw = (.errFormat, none))
    ∧ (raw.take 4 = [0xF0#8, 0x43#8, 0x00#8, 0x09#8] → (raw[4]? ≠ some 0x20#8 ∨ raw[5]? ≠ some 0x00#8) →
        validate raw = (.errSizefield, none))
    ∧ (raw.take 6 = [0xF0#8, 0x43#8, 0x00#8, 0x09#8, 0x20#8, 0x00#8] → raw[4103]? ≠ some 0xF7#8 →
        validate raw = (.errEnd, none))
    ∧ (raw.take 6 = [0xF0#8, 0x43#8, 0x00#8, 0x09#8, 0x20#8, 0x00#8] → raw[4103]? = some 0xF7#8 →
        raw[4102]? ≠ some (checksum7 ((raw.drop 6).take 4096)) →
        validate raw = (.errChecksum, some (checksum7 ((raw.drop 6).take 4096))))
    ∧ (raw.take 6 = [0xF0#8, 0x43#8, 0x00#8, 0x09#8, 0x20#8, 0x00#8] → raw[4103]? = some 0xF7#8 →
        raw[4102]? = some (checksum7 ((raw.drop 6).take 4096)) →
        validate raw = (.ok, some (checksum7 ((raw.drop 6).take 4096))))

/-- R81: the checksum is the two's complement, modulo 128, of the sum of the bytes' low seven bits:
`(128 - (sum mod 128)) mod 128`, a number in 0 to 127. -/
def Obligations.ChecksumOfMaskedSum : Prop :=
  ∀ p : List Byte,
    (checksum7 p).toNat = (128 - (p.map (fun b => b.toNat % 128)).sum % 128) % 128 ∧ (checksum7 p).toNat ≤ 127

/-- Neither the masking of each byte nor the width of an accumulator of 7 bits or more can be seen: the checksum is
minus the plain sum of the bytes, reduced modulo any `2^W` first, modulo 128; so checksum and sum add up to a multiple
of 128 (the inferences of 41_validator sections 2 and 7). -/
def Obligations.ChecksumIgnoresAccumulatorWidth : Prop :=
  ∀ (p : List Byte) (W : Nat), 7 ≤ W →
    (checksum7 p).toNat = (128 - ((p.map BitVec.toNat).sum % 2 ^ W) % 128) % 128
    ∧ ((checksum7 p).toNat + (p.map BitVec.toNat).sum) % 128 = 0

/-- Replacing a byte leaves the checksum as it was exactly when the low seven bits are the same; so flipping bit 7 is
not seen and every other change is (41_validator section 7). -/
def Obligations.ChecksumSeesLowSevenBits : Prop :=
  ∀ (p : List Byte) (k : Nat) (b c : Byte), p[k]? = some b →
    (checksum7 (p.set k c) = checksum7 p ↔ c.toNat % 128 = b.toNat % 128)

/-- A valid message with one payload byte changed in its low seven bits is never valid: it fails check 7
(41_validator section 7). -/
def Obligations.PayloadChangeRejected : Prop :=
  ∀ (raw : List Byte) (k : Nat) (b c : Byte), raw.length = 4104 → (validate raw).1 = .ok →
    6 ≤ k → k ≤ 4101 → raw[k]? = some b → c.toNat % 128 ≠ b.toNat % 128 →
    (validate (raw.set k c)).1 = .errChecksum

/-- R83: check 7 compares the computed value with all 8 bits of the stored byte: on a message whose markers are right
the stored byte passes exactly when it equals the 7-bit value, so one with bit 7 set fails with ERR_CHECKSUM. -/
def Obligations.StoredChecksumComparedWhole : Prop :=
  ∀ (raw : List Byte) (c : Byte), raw.length = 4104 → raw.take 6 = [0xF0#8, 0x43#8, 0x00#8, 0x09#8, 0x20#8, 0x00#8] →
    raw[4103]? = some 0xF7#8 → raw[4102]? = some c →
    ((validate raw).1 = .ok ↔ c.toNat = (checksum7 ((raw.drop 6).take 4096)).toNat)
    ∧ (128 ≤ c.toNat → (validate raw).1 = .errChecksum)

/-- For every payload there is exactly one stored byte that passes check 7, and it is below 0x80
(41_validator section 7). -/
def Obligations.OneStoredByteValidates : Prop :=
  ∀ raw : List Byte, raw.length = 4104 → raw.take 6 = [0xF0#8, 0x43#8, 0x00#8, 0x09#8, 0x20#8, 0x00#8] →
    raw[4103]? = some 0xF7#8 →
    ∃ c : Byte, c.toNat < 128 ∧ ∀ d : Byte, (validate (raw.set 4102 d)).1 = .ok ↔ d = c

/-- R88: CKS raises NOT_LOADED unless LEN is 4104; otherwise it writes the payload's checksum to RES, bit 7 of which is
0, and nothing else, in every phase; it sees no cell but those at 6 to 4101. -/
def Obligations.CksRecomputes : Prop :=
  (∀ w : Word, decode w = .ok .cks ↔ w = 0x40000000)
  ∧ (∀ s : State, s.len ≠ 4104 → exec .cks s = .next { s with fault := .notLoaded })
  ∧ (∀ (s : State) (p : List Byte), s.len = 4104 → s.buf.bytes 6 4096 = some p →
      exec .cks s = .next { s with res := checksum7 p } ∧ (checksum7 p).toNat < 128)
  ∧ (∀ s s' t : State, s.len = s'.len → (∀ a, 6 ≤ a → a ≤ 4101 → s'.buf.read a = s.buf.read a) →
      exec .cks s = .next t → s.len = 4104 → exec .cks s' = .next { s' with res := t.res })

/-- In a sound state whose STATUS is OK, CKS completes and agrees with the stored byte and with CKEXP
(41_validator section 7, item 1). -/
def Obligations.CksAgreesWithVerdict : Prop :=
  ∀ s : State, s.Inv → s.status = .ok →
    ∃ t, exec .cks s = .next t ∧ t.res = s.ckexp ∧ s.buf.read 4102 = some t.res ∧ t.fault = s.fault

/-! ## The extractor -/

/-- R100 and R35: `extract(b, o, w)` is the unsigned number formed by bits `o+w-1` down to `o` of the byte, its own
bit 0 at bit `o`; below `2^w`; the byte itself for `o = 0, w = 8`. -/
def Obligations.ExtractTakesBits : Prop :=
  (∀ (b : Byte) (o w : Nat), 1 ≤ w → o + w ≤ 8 →
    (extract b o w).toNat = b.toNat / 2 ^ o % 2 ^ w ∧ (extract b o w).toNat < 2 ^ w
    ∧ ∀ k, (extract b o w).getLsbD k = (decide (k < w) && b.getLsbD (o + k)))
  ∧ ∀ b : Byte, extract b 0 8 = b

/-- R105: XBF raises BAD_OPERAND for an address above 4103, a width of 0 or above 8, or a field running past its byte;
otherwise NOT_VALIDATED unless STATUS is OK; otherwise it writes to RES the bits named, and nothing else. -/
def Obligations.XbfExtracts : Prop :=
  ∀ (addr : BitVec 13) (bitoff : BitVec 3) (width : BitVec 4) (s : State),
    (∀ w : Word, decode w = .ok (.xbf addr bitoff width)
      ↔ w = 0x50000000 ||| width.setWidth 32 <<< 20 ||| bitoff.setWidth 32 <<< 16 ||| addr.setWidth 32)
    ∧ ((4103 < addr.toNat ∨ width.toNat = 0 ∨ 8 < width.toNat ∨ 8 < bitoff.toNat + width.toNat) →
      exec (.xbf addr bitoff width) s = .next { s with fault := .badOperand })
    ∧ (addr.toNat ≤ 4103 → 1 ≤ width.toNat → bitoff.toNat + width.toNat ≤ 8 →
      (s.status ≠ .ok → exec (.xbf addr bitoff width) s = .next { s with fault := .notValidated })
      ∧ (s.status = .ok → ∀ b : Byte, s.buf.read addr.toNat = some b →
          exec (.xbf addr bitoff width) s
            = .next { s with res := BitVec.ofNat 8 (b.toNat / 2 ^ bitoff.toNat % 2 ^ width.toNat) }))

/-- R113, on a machine with any admissible field table: XVF raises BAD_OPERAND for a field above 28, then NOT_VALIDATED
unless STATUS is OK; otherwise it writes to RES the named bits of the byte at `6 + 128*voice + VT[field].byte`, and
nothing else; that is the field of the decoded voice record. -/
def Obligations.XvfExtracts : Prop :=
  ∀ (voice : BitVec 5) (field : BitVec 6),
    (∀ w : Word, decode w = .ok (.xvf voice field)
      ↔ w = 0x60000000 ||| voice.setWidth 32 <<< 8 ||| field.setWidth 32)
    ∧ ∀ s : State, Admissible s.table →
      (28 < field.toNat → exec (.xvf voice field) s = .next { s with fault := .badOperand })
      ∧ ∀ p : FieldPos, s.table.vt[field.toNat]? = some p →
        (s.status ≠ .ok → exec (.xvf voice field) s = .next { s with fault := .notValidated })
        ∧ (s.status = .ok → ∀ b : Byte, s.buf.read (6 + 128 * voice.toNat + p.byte) = some b →
            exec (.xvf voice field) s
              = .next { s with res := BitVec.ofNat 8 (b.toNat / 2 ^ p.bit % 2 ^ p.width) })
        ∧ (s.status = .ok → ∀ (r : List Byte) (V : Voice),
            s.buf.bytes (6 + 128 * voice.toNat) 128 = some r → decodeVoice s.table r = some V →
            ∃ v : Byte, V.g[field.toNat]? = some v ∧ exec (.xvf voice field) s = .next { s with res := v })

/-- R114, on a machine with any admissible field table: XOF raises BAD_OPERAND for an operator index above 5 or a field
above 20, then NOT_VALIDATED unless STATUS is OK; otherwise it writes to RES the named bits of the byte at
`6 + 128*voice + OP_BASE + OP_SIZE*(5-opr) + OPT[field].byte`, and nothing else; that is the field of that operator of
the decoded voice record. -/
def Obligations.XofExtracts : Prop :=
  ∀ (voice : BitVec 5) (opr : BitVec 3) (field : BitVec 6),
    (∀ w : Word, decode w = .ok (.xof voice opr field)
      ↔ w = 0x70000000 ||| opr.setWidth 32 <<< 16 ||| voice.setWidth 32 <<< 8 ||| field.setWidth 32)
    ∧ ∀ s : State, Admissible s.table →
      ((5 < opr.toNat ∨ 20 < field.toNat) → exec (.xof voice opr field) s = .next { s with fault := .badOperand })
      ∧ ∀ p : FieldPos, opr.toNat ≤ 5 → s.table.opt[field.toNat]? = some p →
        (s.status ≠ .ok → exec (.xof voice opr field) s = .next { s with fault := .notValidated })
        ∧ (s.status = .ok → ∀ b : Byte,
            s.buf.read (6 + 128 * voice.toNat + s.table.opBase + s.table.opSize * (5 - opr.toNat) + p.byte) = some b →
            exec (.xof voice opr field) s
              = .next { s with res := BitVec.ofNat 8 (b.toNat / 2 ^ p.bit % 2 ^ p.width) })
        ∧ (s.status = .ok → ∀ (r : List Byte) (V : Voice),
            s.buf.bytes (6 + 128 * voice.toNat) 128 = some r → decodeVoice s.table r = some V →
            ∃ (o : List Byte) (v : Byte), V.op[opr.toNat]? = some o ∧ o[field.toNat]? = some v
              ∧ exec (.xof voice opr field) s = .next { s with res := v })

/-- XVF and XOF on a machine with the spec's default table (42_extractor sections 5 and 6; the table's numbers are log
entry 5), as the reset state holds it: on a buffer with STATUS OK they complete and write to RES the named bits of the
byte at the field's address. -/
def Obligations.DefaultTableExtractions : Prop :=
  State.reset.table = fieldTable
  ∧ (∀ (voice : BitVec 5) (field : BitVec 6) (p : FieldPos) (s : State) (b : Byte), s.table = fieldTable →
    vtDefault[field.toNat]? = some p → s.status = .ok →
    s.buf.read (6 + 128 * voice.toNat + p.byte) = some b →
    exec (.xvf voice field) s = .next { s with res := BitVec.ofNat 8 (b.toNat / 2 ^ p.bit % 2 ^ p.width) })
  ∧ (∀ (voice : BitVec 5) (opr : BitVec 3) (field : BitVec 6) (p : FieldPos) (s : State) (b : Byte),
    s.table = fieldTable → opr.toNat ≤ 5 → optDefault[field.toNat]? = some p → s.status = .ok →
    s.buf.read (6 + 128 * voice.toNat + 17 * (5 - opr.toNat) + p.byte) = some b →
    exec (.xof voice opr field) s = .next { s with res := BitVec.ofNat 8 (b.toNat / 2 ^ p.bit % 2 ^ p.width) })

/-- A named extraction has, in every state with an admissible field table, the effect of the raw extraction at the
address and position looked up (42_extractor section 7, item 1). -/
def Obligations.NamedExtractionIsRaw : Prop :=
  (∀ (voice : BitVec 5) (field : BitVec 6) (p : FieldPos) (s : State), Admissible s.table →
    s.table.vt[field.toNat]? = some p →
    exec (.xvf voice field) s
      = exec (.xbf (BitVec.ofNat 13 (6 + 128 * voice.toNat + p.byte)) (BitVec.ofNat 3 p.bit)
          (BitVec.ofNat 4 p.width)) s)
  ∧ (∀ (voice : BitVec 5) (opr : BitVec 3) (field : BitVec 6) (p : FieldPos) (s : State), Admissible s.table →
    opr.toNat ≤ 5 → s.table.opt[field.toNat]? = some p →
    exec (.xof voice opr field) s
      = exec (.xbf (BitVec.ofNat 13 (6 + 128 * voice.toNat + s.table.opBase
            + s.table.opSize * (5 - opr.toNat) + p.byte)) (BitVec.ofNat 3 p.bit) (BitVec.ofNat 4 p.width)) s)

/-- The six properties of the extractions (42_extractor section 7) hold in every sound state, so for every admissible
field table; item 5 for a table whose fields share no bit, a condition of the model's own (log entry 14). -/
def Obligations.ExtractionLawsHold : Prop := ∀ s : State, s.Inv → ExtractionLaws s

/-- For every admissible field table the address of every named field lies in its own voice's record, so inside the
payload (42_extractor section 6). -/
def Obligations.NamedAddressesStayInVoice : Prop :=
  ∀ (T : FieldTable) (voice : BitVec 5), Admissible T →
    (∀ (field : BitVec 6) (p : FieldPos), voiceFieldPos T field = some p →
      6 + 128 * voice.toNat ≤ voiceFieldAddr voice p ∧ voiceFieldAddr voice p ≤ 6 + 128 * voice.toNat + 127
      ∧ voiceFieldAddr voice p ≤ 4101)
    ∧ (∀ (opr : BitVec 3) (field : BitVec 6) (p : FieldPos), opr.toNat ≤ 5 → opFieldPos T field = some p →
      6 + 128 * voice.toNat ≤ opFieldAddr T voice opr p ∧ opFieldAddr T voice opr p ≤ 6 + 128 * voice.toNat + 127
      ∧ opFieldAddr T voice opr p ≤ 4101)

/-- R103, R106 and R107: both decoders are total on records of their size, for every admissible table; operator field
`f` is the bits `OPT[f]` of the operator record, voice field `f` the bits `VT[f]` of the voice record, and operator
`i` is decoded from disk slot `5 - i`; the record of voice `v` of a message is its bytes `6 + 128*v` to
`6 + 128*v + 127`. -/
def Obligations.DecodeVoiceFields : Prop :=
  (∀ (raw : List Byte) (v i : Nat), (voiceRecord raw v)[i]? = if i < 128 then raw[6 + 128 * v + i]? else none)
  ∧ ∀ (T : FieldTable) (r : List Byte), Admissible T →
    (r.length = T.opSize → ∃ o : List Byte, decodeOperator T r = some o ∧ o.length = 21
      ∧ ∀ (f : Nat) (p : FieldPos), T.opt[f]? = some p → ∃ b : Byte, r[p.byte]? = some b
        ∧ o[f]? = some (BitVec.ofNat 8 (b.toNat / 2 ^ p.bit % 2 ^ p.width)))
    ∧ (r.length = 128 → ∃ V : Voice, decodeVoice T r = some V ∧ V.op.length = 6 ∧ V.g.length = 29
      ∧ (∀ i, i < 6 → V.op[i]?
          = decodeOperator T ((r.drop (T.opBase + T.opSize * (5 - i))).take T.opSize))
      ∧ ∀ (f : Nat) (p : FieldPos), T.vt[f]? = some p → ∃ b : Byte, r[p.byte]? = some b
        ∧ V.g[f]? = some (BitVec.ofNat 8 (b.toNat / 2 ^ p.bit % 2 ^ p.width)))

/-- R110: on a machine with any admissible field table, the ten name fields of a voice are its record's last ten bytes,
whole and unchanged. -/
def Obligations.NameBytesPassThrough : Prop :=
  ∀ (voice : BitVec 5) (k : Nat) (s : State) (b : Byte), k < 10 → Admissible s.table → s.status = .ok →
    s.buf.read (6 + 128 * voice.toNat + 118 + k) = some b →
    exec (.xvf voice (BitVec.ofNat 6 (19 + k))) s = .next { s with res := b }

/-- The default table is admissible (42_extractor section 2), and no two of its fields share a bit: the model's choice of
the spec's default, log entries 5 and 14. -/
def Obligations.DefaultTableAdmissible : Prop := Admissible fieldTable ∧ FieldsApart fieldTable

/-- An extracted value depends on its own bits only (for `w = 0`, which R100 leaves undefined, by the model's choice, log
entry 16); so in every table whose fields share no bit (log entry 14), changing
the bits of one field leaves every other field of the byte as it was, voice-level or operator's (42_extractor sections 1
and 7); and the default table is one of these (log entry 5). -/
def Obligations.FieldsIndependent : Prop :=
  (∀ (b c : Byte) (o w : Nat), o + w ≤ 8 → (∀ k, o ≤ k → k < o + w → b.getLsbD k = c.getLsbD k) →
    extract b o w = extract c o w)
  ∧ (∀ T : FieldTable, Admissible T → FieldsApart T → ∀ (m n : Nat) (p q : FieldPos) (b c : Byte), m ≠ n →
    (voicePositions T)[m]? = some p → (voicePositions T)[n]? = some q → p.byte = q.byte →
    (∀ k, (k < q.bit ∨ q.bit + q.width ≤ k) → b.getLsbD k = c.getLsbD k) →
    extract b p.bit p.width = extract c p.bit p.width)
  ∧ FieldsApart fieldTable

/-- The frame of CKS, XBF, XVF and XOF: only RES and FAULT may change, never both; every cell reads as before. -/
def Obligations.ResultCommandFrames : Prop :=
  ∀ (i : Instr) (s t : State), writesRes i = true → exec i s = .next t →
    t = { s with res := t.res, fault := t.fault } ∧ (t.res = s.res ∨ t.fault = s.fault)
    ∧ ∀ a, t.buf.read a = s.buf.read a

/-- The order of extractions does not matter, and repeating one gives the same: after any result command that did not
fault, a result command that would not have faulted before leaves exactly what it would have left
(42_extractor section 7, item 3). -/
def Obligations.ExtractionOrderIrrelevant : Prop :=
  ∀ (i j : Instr) (s t u : State), writesRes i = true → writesRes j = true → s.fault = .none →
    exec i s = .next t → t.fault = .none → exec j s = .next u → u.fault = .none →
    exec j t = .next u

/-- In a sound state whose STATUS is OK, every result command with legal operands completes without a fault, changing
RES alone (42_extractor section 7, item 6). -/
def Obligations.LegalExtractionCompletes : Prop :=
  ∀ (i : Instr) (s : State), s.Inv → s.status = .ok → writesRes i = true → i.wellFormed = true →
    ∃ v : Byte, exec i s = .next { s with res := v }

/-! ## Faults, phases, the whole machine -/

/-- R134: a command that faults has done nothing but set FAULT: the buffer and the four other registers keep the
values they had before it; and no later command, however many come, has any effect. -/
def Obligations.FaultIsPrecise : Prop :=
  ∀ (s t : State) (w : Word) (rest : List HostEvent), s.host = .command w :: rest → s.fault = .none →
    step s = .next t → t.fault ≠ .none →
    t = { s with host := rest, fault := t.fault }
    ∧ ∀ (ws : List Word) (later : List HostEvent), rest = ws.map HostEvent.command ++ later →
        core.run ws.length t = .next { t with host := later }

/-- The code of R131's cause that a command raises in a state, by the table of R131 and in the order of R133; 0 when it
raises none. -/
def Sys2Proof.Machine.expectedCauseCode (s : State) (w : Word) : Nat :=
  match decode w with
  | .error _ => 1
  | .ok i =>
    if i.wellFormed = false then 2
    else match i with
      | .ldb _ => if (statusCode s.status).toNat ≠ 0 then 3 else 0
      | .xbf _ _ _ => if (statusCode s.status).toNat ≠ 1 then 4 else 0
      | .xvf _ _ => if (statusCode s.status).toNat ≠ 1 then 4 else 0
      | .xof _ _ _ => if (statusCode s.status).toNat ≠ 1 then 4 else 0
      | .cks => if s.len.toNat ≠ 4104 then 5 else 0
      | .nop => 0
      | .clr => 0
      | .val => 0

/-- R131: what FAULT holds after a command, for every word in every unfaulted state: the code of the first condition
that applies, decoding before operands before the phase, and 0 when none does. -/
def Obligations.FaultCauses : Prop :=
  ∀ (s t : State) (w : Word) (rest : List HostEvent), s.host = .command w :: rest → s.fault = .none →
    step s = .next t → (causeCode t.fault).toNat = expectedCauseCode s w

/-- R20: what each command does in each phase, and the only transitions, in sound states. -/
def Obligations.PhaseTable : Prop :=
  ∀ s : State, s.Inv →
    (∀ (i : Instr) (t : State), exec i s = .next t →
      phaseOf t.status = phaseOf s.status
      ∨ (i = .clr ∧ phaseOf t.status = .loading)
      ∨ (i = .val ∧ phaseOf s.status = .loading ∧ phaseOf t.status ≠ .loading))
    ∧ (∀ rest, s.host = .reset :: rest → ∃ t, step s = .next t ∧ phaseOf t.status = .loading)
    ∧ (s.status = .idle → ∀ b, ∃ t, exec (.ldb b) s = .next t ∧ t.fault = s.fault
        ∧ (s.len.toNat < 4104 → t.buf.read s.len.toNat = some b))
    ∧ (s.status ≠ .idle → ∀ b, exec (.ldb b) s = .next { s with fault := .bufLocked })
    ∧ (s.status = .idle → ∃ t, exec .val s = .next t ∧ t.fault = s.fault ∧ t.status ≠ .idle)
    ∧ (s.status ≠ .idle → exec .val s = .next s)
    ∧ (s.len = 4104 → ∃ v : Byte, exec .cks s = .next { s with res := v })
    ∧ (s.len ≠ 4104 → exec .cks s = .next { s with fault := .notLoaded } ∧ s.status ≠ .ok)
    ∧ (∀ i : Instr, writesRes i = true → i ≠ .cks → i.wellFormed = true →
        (s.status = .ok → ∃ v : Byte, exec i s = .next { s with res := v })
        ∧ (s.status ≠ .ok → exec i s = .next { s with fault := .notValidated }))

/-- R39: once a VAL has run, BUF and LEN change in no step but a CLR or a reset, in any state; and VAL always leaves
STATUS other than IDLE. -/
def Obligations.BufferImmutableAfterVal : Prop :=
  (∀ s t : State, exec .val s = .next t → t.status ≠ .idle)
  ∧ (∀ s t : State, s.status ≠ .idle → step s = .next t →
      (t.buf = s.buf ∧ t.len = s.len ∧ t.status ≠ .idle)
      ∨ s.host.head? = some .reset
      ∨ ∃ w, s.host.head? = some (.command w) ∧ decode w = .ok .clr)

/-- The reset state is sound, with the default field table and with any admissible one: 10_state section 6's invariants
hold of it. -/
def Obligations.ResetIsSound : Prop :=
  State.reset.Inv ∧ ∀ T : FieldTable, Admissible T → (coreWith T).reset = State.resetWith T ∧ (State.resetWith T).Inv

/-- Every step keeps the invariants of 10_state section 6 (with the buffer's canonical form), from every state that
meets them: whatever the host presents, legal or not, and whatever the field table, of those R104 admits. -/
def Obligations.StepKeepsInv : Prop := ∀ s t : State, s.Inv → step s = .next t → t.Inv

/-- From every sound state a step answers a next state: no command reads an unwritten cell or an address outside the
buffer, and none is refused (20_memory section 4). -/
def Obligations.SoundStatesNeverStop : Prop := ∀ s : State, s.Inv → ∃ t, step s = .next t

/-- R60: each pseudo-command stands for the commands shown: RDB reads one whole byte of the validated buffer, XOD
addresses an operator by disk slot, XNM a name character, LOAD and LOADMSG load runs of bytes. -/
def Obligations.PseudoCommands : Prop :=
  (∀ (addr : BitVec 13) (s : State) (b : Byte), addr.toNat ≤ 4103 → s.status = .ok →
      s.buf.read addr.toNat = some b →
      expand (.rdb addr) = some [.xbf addr 0 8] ∧ exec (.xbf addr 0 8) s = .next { s with res := b })
  ∧ (∀ (voice : BitVec 5) (slot : BitVec 3) (field : BitVec 6), slot.toNat ≤ 5 →
      ∃ opr : BitVec 3, expand (.xod voice slot field) = some [.xof voice opr field]
        ∧ opr.toNat = 5 - slot.toNat ∧ 5 - opr.toNat = slot.toNat)
  ∧ (∀ (voice : BitVec 5) (k : BitVec 4), k.toNat ≤ 9 →
      ∃ field : BitVec 6, expand (.xnm voice k) = some [.xvf voice field] ∧ field.toNat = 19 + k.toNat)
  ∧ (∀ bs : List Byte, expand (.load bs) = some (bs.map Instr.ldb)
      ∧ expand (.loadmsg bs) = some (.clr :: bs.map Instr.ldb))
end

