-- ==== Sys2Proof/Laws/Checks.lean ====
section
/-! SUPPORT. Small laws of the validator's functions. -/

namespace Sys2Proof.Machine

theorem byteIs_iff {raw : List Byte} {a : Nat} {v : Byte} : byteIs raw a v = true ↔ raw[a]? = some v := by
  simp [byteIs]

/-- The checksum as a number: `(128 - (sum mod 128)) mod 128` of the masked sum. -/
theorem checksum7_toNat (p : List Byte) : (checksum7 p).toNat = (128 - maskedSum p % 128) % 128 := by
  have h : ((-(maskedSum p : Int)) % 128).toNat = (128 - maskedSum p % 128) % 128 := by omega
  simp only [checksum7, BitVec.toNat_ofNat, h]
  omega

/-- Masking a byte to its low seven bits is its remainder modulo 128. -/
theorem mask7_toNat (b : Byte) : (b &&& 0x7F).toNat = b.toNat % 128 := by
  rw [BitVec.toNat_and]
  exact Nat.and_two_pow_sub_one_eq_mod b.toNat 7

theorem maskedSum_cons (b : Byte) (p : List Byte) : maskedSum (b :: p) = b.toNat % 128 + maskedSum p := by
  rw [maskedSum, mask7_toNat]

/-- The payload of a message of 4104 bytes has 4096. -/
theorem payloadOf_length {raw : List Byte} (h : raw.length = 4104) : (payloadOf raw).length = 4096 := by
  simp [payloadOf, h, Config.payloadOff, Config.payloadLen]

/-- The result STATUS of validate is never IDLE or ERR_SIZE (41_validator R85). -/
theorem validate_status (raw : List Byte) : (validate raw).1 ≠ .idle ∧ (validate raw).1 ≠ .errSize := by
  unfold validate
  repeat' split
  all_goals simp

end Sys2Proof.Machine
end

