-- ==== Sys2Proof/Laws/Memory.lean ====
section
/-! SUPPORT. The laws of the buffer: a read after a write, the canonical form, and runs of cells. -/

namespace Sys2Proof.Machine

@[simp] theorem Memory.read_nil (a : Nat) : Memory.read [] a = none := rfl

/-- A read after a write to the same cell gives the byte written. -/
@[simp] theorem Memory.read_write_same (m : Memory) (a : Nat) (b : Byte) : (m.write a b).read a = some b := by
  induction m with
  | nil => simp [Memory.write, Memory.read]
  | cons c m ih =>
    unfold Memory.write
    split
    · simp [Memory.read]
    · split
      · simp [Memory.read]
      · rename_i h
        simp [Memory.read, Ne.symm h, ih]

/-- A write leaves every other cell alone. -/
theorem Memory.read_write_other (m : Memory) {a a' : Nat} (b : Byte) (h : a' ≠ a) :
    (m.write a b).read a' = m.read a' := by
  induction m with
  | nil => simp [Memory.write, Memory.read, Ne.symm h]
  | cons c m ih =>
    unfold Memory.write
    split
    · simp [Memory.read, Ne.symm h]
    · split
      · rename_i hc
        simp [Memory.read, Ne.symm h, ← hc]
      · simp [Memory.read, ih]

theorem Memory.mem_write (m : Memory) (a : Nat) (b : Byte) :
    ∀ c ∈ m.write a b, c = (a, b) ∨ c ∈ m := by
  induction m with
  | nil => simp [Memory.write]
  | cons d m ih =>
    intro c hc
    unfold Memory.write at hc
    split at hc
    · simpa using hc
    · split at hc
      · simp only [List.mem_cons] at hc ⊢; tauto
      · simp only [List.mem_cons] at hc ⊢
        rcases hc with h | h
        · exact Or.inr (Or.inl h)
        · rcases ih c h with h | h
          · exact Or.inl h
          · exact Or.inr (Or.inr h)

theorem Memory.wf_nil : Memory.wf [] := ⟨List.Pairwise.nil, by simp⟩

/-- A write of a cell of the buffer keeps the canonical form. -/
theorem Memory.wf_write {m : Memory} (h : m.wf) {a : Nat} (ha : a < 4104) (b : Byte) : (m.write a b).wf := by
  refine ⟨?_, ?_⟩
  · have hp := h.1
    clear h
    induction m with
    | nil => simp [Memory.write]
    | cons c m ih =>
      rw [List.pairwise_cons] at hp
      unfold Memory.write
      split
      · rename_i hlt
        refine List.pairwise_cons.2 ⟨fun d hd => ?_, List.pairwise_cons.2 hp⟩
        rcases List.mem_cons.1 hd with rfl | hd
        · exact hlt
        · exact lt_trans hlt (hp.1 d hd)
      · split
        · rename_i heq
          exact List.pairwise_cons.2 ⟨fun d hd => by simpa [heq] using hp.1 d hd, hp.2⟩
        · rename_i hlt hne
          refine List.pairwise_cons.2 ⟨fun d hd => ?_, ih hp.2⟩
          rcases Memory.mem_write m a b d hd with rfl | hd
          · show c.1 < a
            omega
          · exact hp.1 d hd
  · intro c hc
    rcases Memory.mem_write m a b c hc with rfl | hc
    · exact ha
    · exact h.2 c hc

/-- In the canonical form a cell that reads as written is a cell of the buffer. -/
theorem Memory.read_lt {m : Memory} (h : m.wf) {a : Nat} {b : Byte} (hr : m.read a = some b) : a < 4104 := by
  have hm : (a, b) ∈ m := by
    clear h
    induction m with
    | nil => simp at hr
    | cons c m ih =>
      simp only [Memory.read] at hr
      split at hr
      · rename_i hc
        obtain ⟨x, y⟩ := c
        simp only [Option.some.injEq] at hr
        simp_all
      · exact List.mem_cons_of_mem _ (ih hr)
  exact h.2 _ hm

@[simp] theorem Memory.bytes_zero (m : Memory) (a : Nat) : m.bytes a 0 = some [] := rfl

/-- A run of cells is read when, and only when, each of its cells is. -/
theorem Memory.bytes_succ (m : Memory) (a n : Nat) (bs : List Byte) :
    m.bytes a (n + 1) = some bs ↔
      ∃ b bs', m.read a = some b ∧ m.bytes (a + 1) n = some bs' ∧ bs = b :: bs' := by
  simp only [Memory.bytes]
  cases m.read a <;> cases m.bytes (a + 1) n <;> simp [eq_comm]

theorem Memory.bytes_length {m : Memory} {a n : Nat} {bs : List Byte} (h : m.bytes a n = some bs) :
    bs.length = n := by
  induction n generalizing a bs with
  | zero => simp_all
  | succ n ih =>
    obtain ⟨b, bs', -, hb, rfl⟩ := (m.bytes_succ a n bs).1 h
    simp [ih hb]

/-- Byte `k` of a run is the cell at `a + k`. -/
theorem Memory.bytes_getElem {m : Memory} {a n : Nat} {bs : List Byte} (h : m.bytes a n = some bs) {k : Nat}
    (hk : k < n) : bs[k]? = m.read (a + k) := by
  induction n generalizing a bs k with
  | zero => omega
  | succ n ih =>
    obtain ⟨b, bs', hr, hb, rfl⟩ := (m.bytes_succ a n bs).1 h
    cases k with
    | zero => simp [hr]
    | succ k =>
      rw [List.getElem?_cons_succ, ih hb (by omega)]
      congr 1
      omega

/-- A run whose cells are all written is read. -/
theorem Memory.bytes_of_written {m : Memory} {a n : Nat} (h : ∀ k, k < n → (m.read (a + k)).isSome) :
    ∃ bs, m.bytes a n = some bs := by
  induction n generalizing a with
  | zero => exact ⟨[], rfl⟩
  | succ n ih =>
    obtain ⟨b, hb⟩ := Option.isSome_iff_exists.1 (h 0 (by omega))
    obtain ⟨bs, hbs⟩ := ih (a := a + 1) (fun k hk => by
      have := h (k + 1) (by omega)
      rwa [show a + 1 + k = a + (k + 1) by omega])
    exact ⟨b :: bs, (m.bytes_succ a n _).2 ⟨b, bs, hb, hbs, rfl⟩⟩

/-- A run depends only on its own cells. -/
theorem Memory.bytes_congr {m m' : Memory} {a n : Nat} (h : ∀ k, k < n → m.read (a + k) = m'.read (a + k)) :
    m.bytes a n = m'.bytes a n := by
  induction n generalizing a with
  | zero => rfl
  | succ n ih =>
    have h0 : m.read a = m'.read a := h 0 (by omega)
    have h1 : m.bytes (a + 1) n = m'.bytes (a + 1) n := ih (fun k hk => by
      have := h (k + 1) (by omega)
      rwa [show a + 1 + k = a + (k + 1) by omega])
    simp [Memory.bytes, h0, h1]

/-- A shorter run inside a run is that part of its bytes. -/
theorem Memory.bytes_sub {m : Memory} {a n : Nat} {bs : List Byte} (h : m.bytes a n = some bs) {d k : Nat}
    (hk : d + k ≤ n) : m.bytes (a + d) k = some ((bs.drop d).take k) := by
  obtain ⟨cs, hcs⟩ := Memory.bytes_of_written (m := m) (a := a + d) (n := k) (fun j hj => by
    have hj' : bs[d + j]? = m.read (a + d + j) := by
      rw [Memory.bytes_getElem h (by omega)]; congr 1; omega
    rw [← hj', List.getElem?_eq_getElem (by rw [Memory.bytes_length h]; omega)]
    rfl)
  rw [hcs]
  congr 1
  apply List.ext_getElem?
  intro j
  by_cases hj : j < k
  · rw [Memory.bytes_getElem hcs hj, List.getElem?_take_of_lt hj, List.getElem?_drop,
      Memory.bytes_getElem h (by omega)]
    congr 1; omega
  · rw [List.getElem?_eq_none (by rw [Memory.bytes_length hcs]; omega),
      List.getElem?_eq_none (by simp; omega)]

end Sys2Proof.Machine
end

