-- ==== Sys2Proof/Laws/State.lean ====
section
/-! SUPPORT. What each update of the state does to each field, once. -/

namespace Sys2Proof.Machine

variable (s : State)

@[simp] theorem State.raise_buf (c : Cause) : (s.raise c).buf = s.buf := rfl
@[simp] theorem State.raise_len (c : Cause) : (s.raise c).len = s.len := rfl
@[simp] theorem State.raise_status (c : Cause) : (s.raise c).status = s.status := rfl
@[simp] theorem State.raise_fault (c : Cause) : (s.raise c).fault = c := rfl
@[simp] theorem State.raise_ckexp (c : Cause) : (s.raise c).ckexp = s.ckexp := rfl
@[simp] theorem State.raise_res (c : Cause) : (s.raise c).res = s.res := rfl
@[simp] theorem State.raise_table (c : Cause) : (s.raise c).table = s.table := rfl
@[simp] theorem State.raise_host (c : Cause) : (s.raise c).host = s.host := rfl
@[simp] theorem State.raise_seen (c : Cause) : (s.raise c).seen = s.seen := rfl

@[simp] theorem State.putRes_buf (v : Byte) : (s.putRes v).buf = s.buf := rfl
@[simp] theorem State.putRes_len (v : Byte) : (s.putRes v).len = s.len := rfl
@[simp] theorem State.putRes_status (v : Byte) : (s.putRes v).status = s.status := rfl
@[simp] theorem State.putRes_fault (v : Byte) : (s.putRes v).fault = s.fault := rfl
@[simp] theorem State.putRes_ckexp (v : Byte) : (s.putRes v).ckexp = s.ckexp := rfl
@[simp] theorem State.putRes_res (v : Byte) : (s.putRes v).res = v := rfl
@[simp] theorem State.putRes_table (v : Byte) : (s.putRes v).table = s.table := rfl
@[simp] theorem State.putRes_host (v : Byte) : (s.putRes v).host = s.host := rfl
@[simp] theorem State.putRes_seen (v : Byte) : (s.putRes v).seen = s.seen := rfl

@[simp] theorem State.emptied_buf : s.emptied.buf = [] := rfl
@[simp] theorem State.emptied_len : s.emptied.len = 0 := rfl
@[simp] theorem State.emptied_status : s.emptied.status = .idle := rfl
@[simp] theorem State.emptied_fault : s.emptied.fault = s.fault := rfl
@[simp] theorem State.emptied_ckexp : s.emptied.ckexp = 0 := rfl
@[simp] theorem State.emptied_res : s.emptied.res = 0 := rfl
@[simp] theorem State.emptied_table : s.emptied.table = s.table := rfl
@[simp] theorem State.emptied_host : s.emptied.host = s.host := rfl
@[simp] theorem State.emptied_seen : s.emptied.seen = s.seen := rfl

@[simp] theorem State.takeReset_buf : s.takeReset.buf = [] := rfl
@[simp] theorem State.takeReset_len : s.takeReset.len = 0 := rfl
@[simp] theorem State.takeReset_status : s.takeReset.status = .idle := rfl
@[simp] theorem State.takeReset_fault : s.takeReset.fault = .none := rfl
@[simp] theorem State.takeReset_ckexp : s.takeReset.ckexp = 0 := rfl
@[simp] theorem State.takeReset_res : s.takeReset.res = 0 := rfl
@[simp] theorem State.takeReset_table : s.takeReset.table = s.table := rfl
@[simp] theorem State.takeReset_host : s.takeReset.host = s.host := rfl
@[simp] theorem State.takeReset_seen : s.takeReset.seen = s.seen := rfl

@[simp] theorem State.takeRead_buf (n : RegNumber) : (s.takeRead n).buf = s.buf := rfl
@[simp] theorem State.takeRead_len (n : RegNumber) : (s.takeRead n).len = s.len := rfl
@[simp] theorem State.takeRead_status (n : RegNumber) : (s.takeRead n).status = s.status := rfl
@[simp] theorem State.takeRead_fault (n : RegNumber) : (s.takeRead n).fault = s.fault := rfl
@[simp] theorem State.takeRead_ckexp (n : RegNumber) : (s.takeRead n).ckexp = s.ckexp := rfl
@[simp] theorem State.takeRead_res (n : RegNumber) : (s.takeRead n).res = s.res := rfl
@[simp] theorem State.takeRead_table (n : RegNumber) : (s.takeRead n).table = s.table := rfl
@[simp] theorem State.takeRead_host (n : RegNumber) : (s.takeRead n).host = s.host := rfl
@[simp] theorem State.takeRead_seen (n : RegNumber) : (s.takeRead n).seen = s.seen ++ [s.portRead n] := rfl

@[simp] theorem State.present_buf (e : HostEvent) : (s.present e).buf = s.buf := rfl
@[simp] theorem State.present_len (e : HostEvent) : (s.present e).len = s.len := rfl
@[simp] theorem State.present_status (e : HostEvent) : (s.present e).status = s.status := rfl
@[simp] theorem State.present_fault (e : HostEvent) : (s.present e).fault = s.fault := rfl
@[simp] theorem State.present_ckexp (e : HostEvent) : (s.present e).ckexp = s.ckexp := rfl
@[simp] theorem State.present_res (e : HostEvent) : (s.present e).res = s.res := rfl
@[simp] theorem State.present_table (e : HostEvent) : (s.present e).table = s.table := rfl
@[simp] theorem State.present_host (e : HostEvent) : (s.present e).host = e :: s.host := rfl
@[simp] theorem State.present_seen (e : HostEvent) : (s.present e).seen = s.seen := rfl

@[simp] theorem State.resetWith_table (T : Config.FieldTable) : (State.resetWith T).table = T := rfl

@[simp] theorem State.appended_status (b : Byte) : (s.appended b).status = s.status := by
  unfold State.appended; split <;> rfl
@[simp] theorem State.appended_fault (b : Byte) : (s.appended b).fault = s.fault := by
  unfold State.appended; split <;> rfl
@[simp] theorem State.appended_ckexp (b : Byte) : (s.appended b).ckexp = s.ckexp := by
  unfold State.appended; split <;> rfl
@[simp] theorem State.appended_res (b : Byte) : (s.appended b).res = s.res := by
  unfold State.appended; split <;> rfl
@[simp] theorem State.appended_table (b : Byte) : (s.appended b).table = s.table := by
  unfold State.appended; split <;> rfl
@[simp] theorem State.appended_host (b : Byte) : (s.appended b).host = s.host := by
  unfold State.appended; split <;> rfl
@[simp] theorem State.appended_seen (b : Byte) : (s.appended b).seen = s.seen := by
  unfold State.appended; split <;> rfl
@[simp] theorem State.appended_len (b : Byte) : (s.appended b).len = countUp s.len := by
  unfold State.appended; split <;> rfl

end Sys2Proof.Machine
end

