-- ==== Sys2Proof/Laws/Ops.lean ====
section
/-! SUPPORT. For each shared operation, everything it can do, stated once. -/

namespace Sys2Proof.Machine

/-- A read of one cell goes on exactly when the cell exists and is written. -/
theorem State.readCell_eq_next {s : State} {a : Nat} {k : Byte → Result} {t : State} :
    s.readCell a k = .next t ↔ a < 4104 ∧ ∃ b, s.buf.read a = some b ∧ k b = .next t := by
  unfold State.readCell
  split
  · cases s.buf.read a <;> simp_all
  · simp_all

theorem State.readCell_of_read {s : State} {a : Nat} {b : Byte} (ha : a < 4104) (hb : s.buf.read a = some b)
    (k : Byte → Result) : s.readCell a k = k b := by
  simp [State.readCell, ha, hb]

/-- A read of a run of cells goes on exactly when all of them exist and are written. -/
theorem State.readRange_eq_next {s : State} {a n : Nat} {k : List Byte → Result} {t : State} :
    s.readRange a n k = .next t ↔ a + n ≤ 4104 ∧ ∃ bs, s.buf.bytes a n = some bs ∧ k bs = .next t := by
  unfold State.readRange
  split
  · cases s.buf.bytes a n <;> simp_all
  · simp_all

theorem State.readRange_of_bytes {s : State} {a n : Nat} {bs : List Byte} (ha : a + n ≤ 4104)
    (hb : s.buf.bytes a n = some bs) (k : List Byte → Result) : s.readRange a n k = k bs := by
  simp [State.readRange, ha, hb]

/-- An extraction with legal operands: it raises NOT_VALIDATED, or reads a written cell and writes RES. -/
theorem State.extractField_eq_next {s : State} {a bit width : Nat} {t : State} :
    s.extractField a bit width = .next t ↔
      (s.status ≠ .ok ∧ t = s.raise .notValidated) ∨
      (s.status = .ok ∧ a < 4104 ∧ ∃ b, s.buf.read a = some b ∧ t = s.putRes (extract b bit width)) := by
  unfold State.extractField
  split
  · rename_i h
    simp only [Host.Outcome.next.injEq]
    tauto
  · rename_i h
    rw [State.readCell_eq_next]
    simp only [Host.Outcome.next.injEq, eq_comm (b := t)]
    tauto

/-- The verdict of VAL: ERR_SIZE, or the outcome of validate on the 4104 cells. -/
theorem State.applyVerdict_eq_next {s t : State} :
    s.applyVerdict = .next t ↔
      (s.len ≠ 4104 ∧ t = { s with status := .errSize, ckexp := 0 }) ∨
      (s.len = 4104 ∧ ∃ raw, s.buf.bytes 0 4104 = some raw ∧
        t = { s with status := (validate raw).1, ckexp := (validate raw).2.getD 0 }) := by
  unfold State.applyVerdict
  split
  · rename_i h
    simp only [Host.Outcome.next.injEq]
    tauto
  · rename_i h
    rw [State.readRange_eq_next]
    simp only [Host.Outcome.next.injEq, eq_comm (b := t)]
    have : (0 : Nat) + Config.msgLen ≤ 4104 := by decide
    tauto

/-- What an accepted LDB leaves in each cell. -/
theorem State.appended_read (s : State) (b : Byte) (a : Nat) :
    (s.appended b).buf.read a = if a = s.len.toNat ∧ s.len.toNat < 4104 then some b else s.buf.read a := by
  unfold State.appended loadAddr
  by_cases h : s.len.toNat < 4104
  · simp only [Config.msgLen, h, if_true, and_true]
    split
    · rename_i ha; subst ha; simp
    · rename_i ha; exact Memory.read_write_other _ _ ha
  · simp [Config.msgLen, h]

/-- An accepted LDB keeps the buffer's canonical form. -/
theorem State.appended_wf {s : State} (h : s.buf.wf) (b : Byte) : (s.appended b).buf.wf := by
  unfold State.appended loadAddr
  by_cases hl : s.len.toNat < 4104
  · simpa [Config.msgLen, hl] using Memory.wf_write h hl b
  · simpa [Config.msgLen, hl] using h

theorem countUp_toNat (len : BitVec 16) : (countUp len).toNat = min (len.toNat + 1) 65535 := by
  have hlt := len.isLt
  unfold countUp
  split
  · rw [BitVec.toNat_add, show (1 : BitVec 16).toNat = 1 from rfl]
    omega
  · omega

/-- `XBF`'s operands are refused exactly when they are out of the ranges of 42_extractor R105. -/
theorem badRawField_iff {addr : BitVec 13} {bitoff : BitVec 3} {width : BitVec 4} :
    badRawField addr bitoff width = true ↔
      4103 < addr.toNat ∨ width.toNat = 0 ∨ 8 < width.toNat ∨ 8 < bitoff.toNat + width.toNat := by
  simp [badRawField, or_assoc]

/-- The position of a voice-level field is the table's entry; there is none above field 28. -/
theorem voiceFieldPos_eq (T : Config.FieldTable) (field : BitVec 6) : voiceFieldPos T field = T.vt[field.toNat]? := by
  unfold voiceFieldPos
  split
  · rw [Vector.getElem?_eq_none (by omega)]
  · rw [Vector.getElem?_eq_getElem (by omega)]

/-- The position of an operator field is the table's entry; there is none above field 20. -/
theorem opFieldPos_eq (T : Config.FieldTable) (field : BitVec 6) : opFieldPos T field = T.opt[field.toNat]? := by
  unfold opFieldPos
  split
  · rw [Vector.getElem?_eq_none (by omega)]
  · rw [Vector.getElem?_eq_getElem (by omega)]

/-- A command word's turn, by cases: ignored, illegal, or run. -/
theorem commandTurn_cases (run : Instr → State → Result) (w : Word) (s : State) :
    (s.fault ≠ .none ∧ commandTurn run w s = .next s) ∨
    (s.fault = .none ∧ (∃ e, decode w = .error e) ∧ commandTurn run w s = .next (s.raise .illegalCmd)) ∨
    (s.fault = .none ∧ ∃ i, decode w = .ok i ∧ commandTurn run w s = run i s) := by
  unfold commandTurn State.halted
  by_cases h : s.fault = .none
  · cases hd : decode w <;> simp [h]
  · simp [h]

/-- A step, by the host's next transaction. -/
theorem step_cases (s : State) :
    (s.host = [] ∧ step s = .next s) ∨
    (∃ w rest, s.host = .command w :: rest ∧ step s = commandTurn exec w { s with host := rest }) ∨
    (∃ n rest, s.host = .readReg n :: rest ∧
      step s = .next (State.takeRead { s with host := rest } n)) ∨
    (∃ rest, s.host = .reset :: rest ∧ step s = .next (State.takeReset { s with host := rest })) := by
  unfold step hostTurn
  match hh : s.host with
  | [] => exact Or.inl ⟨rfl, rfl⟩
  | .command w :: rest => exact Or.inr (Or.inl ⟨w, rest, rfl, rfl⟩)
  | .readReg n :: rest => exact Or.inr (Or.inr (Or.inl ⟨n, rest, rfl, rfl⟩))
  | .reset :: rest => exact Or.inr (Or.inr (Or.inr ⟨rest, rfl, rfl⟩))

/-- A step at a state whose next transaction is a command word. -/
theorem step_of_command {s : State} {w : Word} {rest : List HostEvent} (h : s.host = .command w :: rest) :
    step s = commandTurn exec w { s with host := rest } := by
  simp [step, hostTurn, h, eventTurn]

/-- A run of one step more: the step, then the run from where it leads. -/
theorem core_run_succ {k : Nat} {s t : State} (h : step s = .next t) :
    core.run (k + 1) s = core.run k t := by
  have hs : core.step s = .next t := h
  simp only [Host.Core.run, hs]

end Sys2Proof.Machine
end

