-- ==== Sys2Proof/Laws/Commands.lean ====
section
/-! SUPPORT. For each command with a fault of its own, everything it can do, stated once; and the raw extraction a named
one is. -/

namespace Sys2Proof.Machine

open Sys2Proof.Config

variable {s t : State}

theorem execLdb_eq_next {b : BitVec 8} :
    execLdb b s = .next t ↔
      (s.status ≠ .idle ∧ t = s.raise .bufLocked) ∨ (s.status = .idle ∧ t = s.appended b) := by
  unfold execLdb
  split
  · rename_i h
    simp only [Host.Outcome.next.injEq, eq_comm (b := t)]
    tauto
  · rename_i h
    simp only [Host.Outcome.next.injEq, eq_comm (b := t)]
    tauto

theorem execCks_eq_next :
    execCks s = .next t ↔
      (s.len ≠ 4104 ∧ t = s.raise .notLoaded) ∨
      (s.len = 4104 ∧ ∃ p, s.buf.bytes 6 4096 = some p ∧ t = s.putRes (checksum7 p)) := by
  unfold execCks
  split
  · rename_i h
    simp only [Host.Outcome.next.injEq, eq_comm (b := t)]
    tauto
  · rename_i h
    rw [State.readRange_eq_next]
    simp only [Host.Outcome.next.injEq, eq_comm (b := t)]
    have : payloadOff + payloadLen ≤ 4104 := by decide
    tauto

theorem execXbf_eq_next {addr : BitVec 13} {bitoff : BitVec 3} {width : BitVec 4} :
    execXbf addr bitoff width s = .next t ↔
      (badRawField addr bitoff width = true ∧ t = s.raise .badOperand) ∨
      (badRawField addr bitoff width = false ∧
        s.extractField addr.toNat bitoff.toNat width.toNat = .next t) := by
  unfold execXbf
  cases badRawField addr bitoff width <;> simp [eq_comm (b := t)]

theorem execXvf_eq_next {voice : BitVec 5} {field : BitVec 6} :
    execXvf voice field s = .next t ↔
      (voiceFieldPos s.table field = none ∧ t = s.raise .badOperand) ∨
      (∃ p, voiceFieldPos s.table field = some p ∧
        s.extractField (voiceFieldAddr voice p) p.bit p.width = .next t) := by
  unfold execXvf
  cases voiceFieldPos s.table field <;> simp [eq_comm (b := t)]

theorem execXof_eq_next {voice : BitVec 5} {opr : BitVec 3} {field : BitVec 6} :
    execXof voice opr field s = .next t ↔
      ((5 < opr.toNat ∨ opFieldPos s.table field = none) ∧ t = s.raise .badOperand) ∨
      (opr.toNat ≤ 5 ∧ ∃ p, opFieldPos s.table field = some p ∧
        s.extractField (opFieldAddr s.table voice opr p) p.bit p.width = .next t) := by
  unfold execXof
  split
  · rename_i h
    have : ¬ opr.toNat ≤ 5 := by omega
    simp [eq_comm (b := t), h, this]
  · rename_i h
    have : opr.toNat ≤ 5 := by omega
    cases opFieldPos s.table field <;> simp [eq_comm (b := t), h, this]

/-- A position inside one byte, at an address of the buffer, is a legal raw field, and its operands are the numbers. -/
theorem exec_rawField {a : Nat} {p : FieldPos} (ha : a < 4104) (hp : insideByte p) (s : State) :
    exec (rawField a p) s = s.extractField a p.bit p.width := by
  obtain ⟨h1, h2, h3⟩ := hp
  have h4 : (BitVec.ofNat 13 a).toNat = a := by rw [BitVec.toNat_ofNat]; omega
  have h5 : (BitVec.ofNat 3 p.bit).toNat = p.bit := by rw [BitVec.toNat_ofNat]; omega
  have h6 : (BitVec.ofNat 4 p.width).toNat = p.width := by rw [BitVec.toNat_ofNat]; omega
  have hb : badRawField (BitVec.ofNat 13 a) (BitVec.ofNat 3 p.bit) (BitVec.ofNat 4 p.width) = false := by
    rw [Bool.eq_false_iff]
    intro hb
    rw [badRawField_iff, h4, h5, h6] at hb
    omega
  show execXbf (BitVec.ofNat 13 a) (BitVec.ofNat 3 p.bit) (BitVec.ofNat 4 p.width) s = _
  unfold execXbf
  rw [hb, h4, h5, h6]
  rfl

end Sys2Proof.Machine
end

