-- ==== Sys2Proof/Laws/FieldTable.lean ====
section
/-! SUPPORT. What an admissible field table says of each of its fields, and what the conditions on shared bytes mean. -/

namespace Sys2Proof.Machine

open Sys2Proof.Config

variable {T : FieldTable} {p q : FieldPos}

theorem admissible_opt (h : Admissible T) (hp : p ∈ T.opt.toList) : insideByte p ∧ p.byte < T.opSize :=
  ⟨h.1.1 p hp, h.2.2.2.2.1.1 p hp⟩

theorem admissible_vt (h : Admissible T) (hp : p ∈ T.vt.toList) : insideByte p ∧ p.byte ≤ 127 :=
  ⟨h.1.2 p hp, h.2.2.2.2.1.2.2 p hp⟩

theorem admissible_block (h : Admissible T) : T.opBase + 6 * T.opSize ≤ 128 := h.2.2.2.2.1.2.1

theorem admissible_name (h : Admissible T) (k : Fin 10) : T.vt[19 + k.val] = ⟨118 + k.val, 0, 8⟩ := h.2.2.2.1 k

theorem apart_comm (h : apart p q) : apart q p := by
  rcases h with h | h | h
  · exact Or.inl (Ne.symm h)
  · exact Or.inr (Or.inr h)
  · exact Or.inr (Or.inl h)

/-- A position of the voice record is a voice-level field or an operator's field in some disk slot. -/
theorem mem_voicePositions :
    p ∈ voicePositions T ↔
      p ∈ T.vt.toList ∨
      ∃ d, d < 6 ∧ ∃ q ∈ T.opt.toList, { q with byte := T.opBase + T.opSize * d + q.byte } = p := by
  simp only [voicePositions, List.mem_append, List.mem_flatMap, List.mem_range, List.mem_map]

/-- Every field of an admissible table lies in one byte of the voice record. -/
theorem admissible_voicePositions (h : Admissible T) (hp : p ∈ voicePositions T) : insideByte p ∧ p.byte ≤ 127 := by
  rcases mem_voicePositions.1 hp with hv | ⟨d, hd, q, hq, rfl⟩
  · exact admissible_vt h hv
  · obtain ⟨h1, h2⟩ := admissible_opt h hq
    have h3 := admissible_block h
    have h4 : T.opSize * d ≤ T.opSize * 5 := Nat.mul_le_mul_left _ (by omega)
    refine ⟨h1, ?_⟩
    show T.opBase + T.opSize * d + q.byte ≤ 127
    omega

/-- A byte with a 3-bit and a 4-bit field: these two and no more, and they share no bit. -/
theorem threeAndFour_iff {l : List FieldPos} :
    threeAndFour l = true ↔
      ∃ p q, l = [p, q] ∧ (p.width = 3 ∧ q.width = 4 ∨ p.width = 4 ∧ q.width = 3) ∧ apart p q := by
  unfold threeAndFour
  split
  · rename_i p q
    rw [decide_eq_true_iff]
    constructor
    · rintro ⟨h1, h2, h3⟩
      exact ⟨p, q, rfl, by omega, h3⟩
    · rintro ⟨p', q', h1, h2, h3⟩
      cases h1
      exact ⟨by omega, by omega, h3⟩
  · rename_i h
    simp only [Bool.false_eq_true, false_iff]
    rintro ⟨p, q, rfl, -⟩
    exact h p q rfl

end Sys2Proof.Machine
end

