-- ==== Sys2Proof/Laws/Image.lean ====
section
/-! SUPPORT. A buffer holding a given run of bytes, and what it reads as: for tests and witnesses. -/

namespace Sys2Proof.Machine

/-- The cells `a, a+1, ...` holding the bytes of a list. -/
def imageOf : Nat → List Byte → Memory
  | _, [] => []
  | a, b :: bs => (a, b) :: imageOf (a + 1) bs

theorem imageOf_mem {a : Nat} {bs : List Byte} {c : Host.Cell} (h : c ∈ imageOf a bs) :
    a ≤ c.1 ∧ c.1 < a + bs.length := by
  induction bs generalizing a with
  | nil => simp [imageOf] at h
  | cons b bs ih =>
    rcases List.mem_cons.1 h with rfl | h
    · simp
    · have := ih h
      simp only [List.length_cons]
      omega

theorem imageOf_wf {bs : List Byte} {a : Nat} (h : a + bs.length ≤ 4104) : (imageOf a bs).wf := by
  refine ⟨?_, fun c hc => by have := imageOf_mem hc; omega⟩
  clear h
  induction bs generalizing a with
  | nil => exact List.Pairwise.nil
  | cons b bs ih =>
    refine List.pairwise_cons.2 ⟨fun c hc => ?_, ih⟩
    have := imageOf_mem hc
    show a < c.1
    omega

theorem imageOf_read (a : Nat) (bs : List Byte) (x : Nat) :
    (imageOf a bs).read x = if a ≤ x then bs[x - a]? else none := by
  induction bs generalizing a with
  | nil => simp [imageOf]
  | cons b bs ih =>
    simp only [imageOf, Memory.read, ih]
    by_cases h : a = x
    · subst h; simp
    · by_cases h1 : a + 1 ≤ x
      · rw [if_neg h, if_pos h1, if_pos (by omega), show x - a = (x - (a + 1)) + 1 by omega,
          List.getElem?_cons_succ]
      · rw [if_neg h, if_neg h1, if_neg (by omega)]

theorem imageOf_bytes (bs : List Byte) (d n : Nat) (h : d + n ≤ bs.length) :
    (imageOf 0 bs).bytes d n = some ((bs.drop d).take n) := by
  obtain ⟨cs, hcs⟩ := Memory.bytes_of_written (m := imageOf 0 bs) (a := d) (n := n) (fun k hk => by
    rw [imageOf_read]
    simp only [Nat.zero_le, if_true, Nat.sub_zero]
    rw [List.getElem?_eq_getElem (by omega)]
    rfl)
  rw [hcs]
  congr 1
  apply List.ext_getElem?
  intro j
  by_cases hj : j < n
  · rw [Memory.bytes_getElem hcs hj, imageOf_read, List.getElem?_take_of_lt hj, List.getElem?_drop]
    simp
  · rw [List.getElem?_eq_none (by rw [Memory.bytes_length hcs]; omega),
      List.getElem?_eq_none (by simp; omega)]

end Sys2Proof.Machine
end

