-- ==== Sys2Proof/Laws/PerInstr.lean ====
section
/-! SUPPORT. Statements made for every command, one lemma per constructor: the word of a command selects the command's
own row of the opcode map (30_encoding R52). -/

namespace Sys2Proof.Laws.EncodingMatchesRow

/-- The word of the command, under its row's mask, is its row's match value (30_encoding R52). -/
def Statement (i : Instr) : Prop := selectsRow (encode i) (opcodeRow i) = true

theorem nop : Statement .nop := by
  unfold Statement
  decide
theorem clr : Statement .clr := by
  unfold Statement
  decide
theorem val : Statement .val := by
  unfold Statement
  decide
theorem cks : Statement .cks := by
  unfold Statement
  decide

theorem ldb (imm8 : BitVec 8) : Statement (.ldb imm8) := by
  simp only [Statement, selectsRow, opcodeRow, encode, beq_iff_eq]
  ext k hk
  simp
  interval_cases k <;> simp

theorem xbf (addr : BitVec 13) (bitoff : BitVec 3) (width : BitVec 4) : Statement (.xbf addr bitoff width) := by
  simp only [Statement, selectsRow, opcodeRow, encode, beq_iff_eq]
  ext k hk
  simp
  interval_cases k <;> simp

theorem xvf (voice : BitVec 5) (field : BitVec 6) : Statement (.xvf voice field) := by
  simp only [Statement, selectsRow, opcodeRow, encode, beq_iff_eq]
  ext k hk
  simp
  interval_cases k <;> simp

theorem xof (voice : BitVec 5) (opr : BitVec 3) (field : BitVec 6) : Statement (.xof voice opr field) := by
  simp only [Statement, selectsRow, opcodeRow, encode, beq_iff_eq]
  ext k hk
  simp
  interval_cases k <;> simp

end Sys2Proof.Laws.EncodingMatchesRow
end

