-- ==== Sys2Proof/Laws/Records.lean ====
section
/-! SUPPORT. What the record decoders answer, field by field. -/

namespace Sys2Proof.Machine

open Sys2Proof.Config

/-- A record decoded at a list of positions has one value per position, each the field at that position. -/
theorem fieldsAt_eq_some {rec : List Byte} {ps : List FieldPos} {vs : List Byte} (h : fieldsAt rec ps = some vs) :
    vs.length = ps.length ∧ ∀ (k : Nat) (p : FieldPos), ps[k]? = some p → vs[k]? = fieldAt rec p := by
  induction ps generalizing vs with
  | nil => simp_all [fieldsAt]
  | cons p ps ih =>
    unfold fieldsAt at h
    split at h
    · rename_i v vs' hv hvs
      simp only [Option.some.injEq] at h
      subst h
      refine ⟨by simp [(ih hvs).1], fun k q hk => ?_⟩
      cases k with
      | zero => simp_all
      | succ k => simpa using (ih hvs).2 k q (by simpa using hk)
    · simp at h

/-- A record that holds every position is decoded. -/
theorem fieldsAt_isSome {rec : List Byte} {ps : List FieldPos} (h : ∀ p ∈ ps, p.byte < rec.length) :
    ∃ vs, fieldsAt rec ps = some vs := by
  induction ps with
  | nil => exact ⟨[], rfl⟩
  | cons p ps ih =>
    obtain ⟨vs, hvs⟩ := ih (fun q hq => h q (List.mem_cons_of_mem _ hq))
    have hp : fieldAt rec p = some (extract (rec[p.byte]'(h p (by simp))) p.bit p.width) := by
      simp [fieldAt, h p (by simp)]
    exact ⟨_, by simp [fieldsAt, hp, hvs]; rfl⟩

/-- The operators decoded, one per logical index from `i` on, each from its own disk slot. -/
theorem decodeOperators_eq_some {T : FieldTable} {rec : List Byte} {i n : Nat} {os : List (List Byte)}
    (h : decodeOperators T rec i n = some os) :
    os.length = n ∧ ∀ k, k < n → os[k]? = decodeOperator T (operatorSlot T rec (diskSlot (i + k))) := by
  induction n generalizing i os with
  | zero => simp_all [decodeOperators]
  | succ n ih =>
    unfold decodeOperators at h
    split at h
    · rename_i o os' ho hos
      simp only [Option.some.injEq] at h
      subst h
      refine ⟨by simp [(ih hos).1], fun k hk => ?_⟩
      cases k with
      | zero => simp [ho]
      | succ k =>
        rw [List.getElem?_cons_succ, (ih hos).2 k (by omega)]
        rw [show i + 1 + k = i + (k + 1) by omega]
    · simp at h

end Sys2Proof.Machine
end

