-- ==== Sys2Proof/Machine/Assembler.lean ====
section
/-! DEFINITION. The assembler's lines (30_encoding R59): one command a line, the mnemonic in upper case, then operands
separated by commas in the order of R52; decimal or 0x numbers, field names of 42_extractor R117, comments from a
semicolon. What R59 leaves open of the spelling is log entry 10. -/

namespace Sys2Proof.Machine

def isBlankChar (c : Char) : Bool := c == ' ' || c == '\t'

/-- The text without blanks at its ends. -/
def trimBlanks (l : List Char) : List Char :=
  ((l.dropWhile isBlankChar).reverse.dropWhile isBlankChar).reverse

/-- The pieces between commas. -/
def splitCommas : List Char → List (List Char)
  | [] => [[]]
  | c :: cs =>
    match splitCommas cs with
    | [] => [[c]]
    | p :: ps => if c == ',' then [] :: p :: ps else (c :: p) :: ps

/-- The value of a digit in base 16; decimal digits are those below 10. -/
def digitValue (c : Char) : Option Nat :=
  if '0' ≤ c ∧ c ≤ '9' then some (c.toNat - '0'.toNat)
  else if 'a' ≤ c ∧ c ≤ 'f' then some (c.toNat - 'a'.toNat + 10)
  else if 'A' ≤ c ∧ c ≤ 'F' then some (c.toNat - 'A'.toNat + 10)
  else none

/-- The number written by a list of digits of a base, after `acc`. -/
def digitsValue (base : Nat) : Nat → List Char → Option Nat
  | acc, [] => some acc
  | acc, c :: cs =>
    match digitValue c with
    | some d => if d < base then digitsValue base (acc * base + d) cs else none
    | none => none

/-- A number: decimal, or hexadecimal after `0x` (R59). -/
def parseNumber : List Char → Option Nat
  | [] => none
  | ['0', 'x'] => none
  | '0' :: 'x' :: cs => digitsValue 16 0 cs
  | cs => digitsValue 10 0 cs

/-- A `field` operand: a number, or a name standing for its id (R59, 42_extractor R117). -/
def parseField (names : List String) (l : List Char) : Option Nat :=
  match parseNumber l with
  | some n => some n
  | none => names.findIdx? (fun n => n.toList == l)

/-- A number as an operand of `w` bits, when its encoding can hold it (R53). -/
def fitBits (w : Nat) (n : Option Nat) : Option (BitVec w) :=
  match n with
  | some n => if n < 2 ^ w then some (BitVec.ofNat w n) else none
  | none => none

/-- Every operand a byte. -/
def parseBytes : List (List Char) → Option (List Byte)
  | [] => some []
  | l :: ls =>
    match fitBits 8 (parseNumber l), parseBytes ls with
    | some b, some bs => some (b :: bs)
    | _, _ => none

/-- One command or pseudo-command from its mnemonic and operands (R52, R59, R60). -/
def assembleWords (mnemonic : List Char) (ops : List (List Char)) : Option (List Instr) :=
  if mnemonic == "NOP".toList then
    match ops with | [] => some [.nop] | _ => none
  else if mnemonic == "CLR".toList then
    match ops with | [] => some [.clr] | _ => none
  else if mnemonic == "VAL".toList then
    match ops with | [] => some [.val] | _ => none
  else if mnemonic == "CKS".toList then
    match ops with | [] => some [.cks] | _ => none
  else if mnemonic == "LDB".toList then
    match ops with
    | [b] => (fitBits 8 (parseNumber b)).map (fun b => [.ldb b])
    | _ => none
  else if mnemonic == "XBF".toList then
    match ops with
    | [a, b, w] =>
      match fitBits 13 (parseNumber a), fitBits 3 (parseNumber b), fitBits 4 (parseNumber w) with
      | some a, some b, some w => some [.xbf a b w]
      | _, _, _ => none
    | _ => none
  else if mnemonic == "XVF".toList then
    match ops with
    | [v, f] =>
      match fitBits 5 (parseNumber v), fitBits 6 (parseField voiceFieldNames f) with
      | some v, some f => some [.xvf v f]
      | _, _ => none
    | _ => none
  else if mnemonic == "XOF".toList then
    match ops with
    | [v, o, f] =>
      match fitBits 5 (parseNumber v), fitBits 3 (parseNumber o), fitBits 6 (parseField opFieldNames f) with
      | some v, some o, some f => some [.xof v o f]
      | _, _, _ => none
    | _ => none
  else if mnemonic == "RDB".toList then
    match ops with
    | [a] =>
      match fitBits 13 (parseNumber a) with
      | some a => expand (.rdb a)
      | none => none
    | _ => none
  else if mnemonic == "XOD".toList then
    match ops with
    | [v, d, f] =>
      match fitBits 5 (parseNumber v), fitBits 3 (parseNumber d), fitBits 6 (parseField opFieldNames f) with
      | some v, some d, some f => expand (.xod v d f)
      | _, _, _ => none
    | _ => none
  else if mnemonic == "XNM".toList then
    match ops with
    | [v, k] =>
      match fitBits 5 (parseNumber v), fitBits 4 (parseNumber k) with
      | some v, some k => expand (.xnm v k)
      | _, _ => none
    | _ => none
  else if mnemonic == "LOAD".toList then
    match parseBytes ops with
    | some bs => expand (.load bs)
    | none => none
  else if mnemonic == "LOADMSG".toList then
    match parseBytes ops with
    | some m => expand (.loadmsg m)
    | none => none
  else none

/-- The commands of one line of assembler text (R59); a line with nothing before its comment has none. -/
def assembleLine (line : List Char) : Option (List Instr) :=
  let text := trimBlanks (line.takeWhile (fun c => c != ';'))
  let mnemonic := text.takeWhile (fun c => !isBlankChar c)
  let rest := trimBlanks (text.dropWhile (fun c => !isBlankChar c))
  if text.isEmpty then some []
  else assembleWords mnemonic (if rest.isEmpty then [] else (splitCommas rest).map trimBlanks)

end Sys2Proof.Machine
end

