-- ==== Sys2Proof/Tests/Slice0.lean ====
section
/-! SUPPORT. Tests with expected values from spec/95_test_vectors.md (their ids in the comments) or by hand from the
rules, and for every statement with hypotheses a witness that meets them (witness_<Name>). -/

namespace Sys2Proof.Tests

open Sys2Proof Sys2Proof.Machine Sys2Proof.Config

/-! ## Well-formedness: an ill-formed term for each check (R53; V3) -/

theorem test_wf_addr : (Instr.xbf 4104 0 8).wellFormed = false := by decide
theorem test_wf_width_zero : (Instr.xbf 6 0 0).wellFormed = false := by decide
theorem test_wf_width_nine : (Instr.xbf 6 0 9).wellFormed = false := by decide
theorem test_wf_crosses_byte : (Instr.xbf 6 4 5).wellFormed = false := by decide
theorem test_wf_voice_field : (Instr.xvf 0 29).wellFormed = false := by decide
theorem test_wf_opr : (Instr.xof 2 6 0).wellFormed = false := by decide
theorem test_wf_op_field : (Instr.xof 0 0 21).wellFormed = false := by decide
theorem test_wf_boundaries : (Instr.xbf 4103 7 1).wellFormed = true ∧ (Instr.xbf 0 0 8).wellFormed = true
    ∧ (Instr.xvf 31 28).wellFormed = true ∧ (Instr.xof 31 5 20).wellFormed = true := by decide

/-! ## Decoding: words of 95_test_vectors, or written out from the encoding lines -/

theorem test_decode_nop : decode 0b00000000000000000000000000000000 = .ok .nop := by decide
theorem test_decode_clr : decode 0b00010000000000000000000000000000 = .ok .clr := by decide
theorem test_decode_ldb : decode 0b00100000000000000000000011110000 = .ok (.ldb 0xF0) := by decide
theorem test_decode_val : decode 0b00110000000000000000000000000000 = .ok .val := by decide
theorem test_decode_cks : decode 0b01000000000000000000000000000000 = .ok .cks := by decide
-- width 0010, bitoff 010, addr 0000000010001
theorem test_decode_xbf : decode 0b01010000001000100000000000010001 = .ok (.xbf 17 2 2) := by decide
-- voice 11111, field 011100
theorem test_decode_xvf : decode 0b01100000000000000001111100011100 = .ok (.xvf 31 28) := by decide
-- opr 101, voice 00011, field 001110
theorem test_decode_xof : decode 0b01110000000001010000001100001110 = .ok (.xof 3 5 14) := by decide
-- TF1, TF2, TF3, TF4, TF14, TL11
theorem test_decode_illegal : decode 0x80000000 = .error .reservedOpcode ∧ decode 0xFFFFFFFF = .error .reservedOpcode
    ∧ decode 0x00000001 = .error .reservedBits ∧ decode 0x60010000 = .error .reservedBits
    ∧ decode 0x70F60000 = .error .reservedBits ∧ decode 0x20000100 = .error .reservedBits := by decide
theorem test_encode : encode (.xbf 487 3 4) = 0x504301E7 ∧ encode (.xof 31 5 20) = 0x70051F14
    ∧ encode (.xvf 3 28) = 0x6000031C ∧ encode (.ldb 0xF7) = 0x200000F7 := by decide
theorem test_table_word : decodeTableWord 32 0x7000030E = some (.xof 3 0 14)
    ∧ decodeTableWord 32 0x80000000 = none := by decide

/-! ## Small states -/

/-- An idle block with a count and a few cells. -/
def idle (n : BitVec 16) (m : Memory) : State := { State.reset with len := n, buf := m }

/-- A block whose STATUS is OK, with only the cells a test reads. -/
def okWith (m : Memory) : State := { State.reset with len := 4104, status := .ok, buf := m }

def resOf : Result → Option Byte
  | .next t => some t.res
  | .fault _ => none
  | .refused _ => none

def causeOf : Result → Option Cause
  | .next t => some t.fault
  | .fault _ => none
  | .refused _ => none

def lenOf : Result → Option (BitVec 16)
  | .next t => some t.len
  | .fault _ => none
  | .refused _ => none

def statusOf : Result → Option Status
  | .next t => some t.status
  | .fault _ => none
  | .refused _ => none

def cellOf (a : Nat) : Result → Option Byte
  | .next t => t.buf.read a
  | .fault _ => none
  | .refused _ => none

/-! ## Load and control -/

-- TL10
theorem test_nop : lenOf (exec .nop (idle 5 [])) = some 5 := by decide
-- TL8, the example of R71
theorem test_clr : exec .clr { idle 4104 [(0, 0xF0)] with status := .errVendor, res := 0x12 } = .next State.reset := by
  rfl
-- TL1, TL3
theorem test_ldb_stores : cellOf 0 (exec (.ldb 0xF0) State.reset) = some 0xF0
    ∧ lenOf (exec (.ldb 0xF0) State.reset) = some 1
    ∧ cellOf 4103 (exec (.ldb 0xF7) (idle 4103 [])) = some 0xF7 := by decide
-- TL4, TL5, TL6
theorem test_ldb_limits : lenOf (exec (.ldb 0x12) (idle 4104 [])) = some 4105
    ∧ cellOf 4104 (exec (.ldb 0x12) (idle 4104 [])) = none
    ∧ lenOf (exec (.ldb 0) (idle 65535 [])) = some 65535
    ∧ causeOf (exec (.ldb 0) (okWith [])) = some .bufLocked := by decide

/-! ## The validator -/

/-- `M0` of 95_test_vectors with other checksum and first payload bytes. -/
def message (first stored : Byte) : List Byte :=
  [0xF0, 0x43, 0x00, 0x09, 0x20, 0x00, first] ++ List.replicate 4095 0 ++ [stored, 0xF7]

-- TK1 to TK7 (bytes of 0 change no sum)
theorem test_checksum : checksum7 [] = 0x00 ∧ checksum7 [0x01] = 0x7F ∧ checksum7 [0x7F] = 0x01
    ∧ checksum7 [0x80] = 0x00 ∧ checksum7 [0xFF] = 0x01 ∧ checksum7 [0x40, 0x40] = 0x00
    ∧ checksum7 [0x63, 0x00, 0x41] = 0x5C := by decide
-- TK8
theorem test_checksum_largest : checksum7 (List.replicate 4096 0x7F) = 0x00 := by decide +kernel
-- TV1, TV9, TV10, TV11, TV13
theorem test_validate_checksum : validate (message 0 0) = (.ok, some 0x00)
    ∧ validate (message 0 0x55) = (.errChecksum, some 0x00) ∧ validate (message 1 0) = (.errChecksum, some 0x7F)
    ∧ validate (message 1 0x7F) = (.ok, some 0x7F) ∧ validate (message 0 0x80) = (.errChecksum, some 0x00) := by
  decide +kernel
-- TV2 to TV8, TV14, TV15
theorem test_validate_markers : validate ((message 0 0).set 0 0x00) = (.errStart, none)
    ∧ validate ((message 0 0).set 1 0x44) = (.errVendor, none)
    ∧ validate ((message 0 0).set 2 0x01) = (.errSubstatus, none)
    ∧ validate ((message 0 0).set 3 0x00) = (.errFormat, none)
    ∧ validate ((message 0 0).set 4 0x10) = (.errSizefield, none)
    ∧ validate ((message 0 0).set 5 0x01) = (.errSizefield, none)
    ∧ validate ((message 0 0).set 4103 0x00) = (.errEnd, none)
    ∧ validate ((message 0 0x55).set 1 0x44) = (.errVendor, none)
    ∧ validate ((message 0 1).set 4103 0x00) = (.errEnd, none) := by decide +kernel
-- TV17, TV18, TV19
theorem test_val_size : statusOf (exec .val (idle 3 [])) = some .errSize
    ∧ statusOf (exec .val State.reset) = some .errSize ∧ statusOf (exec .val (idle 4105 [])) = some .errSize := by
  decide
-- TQ5, TQ6
theorem test_cks_not_loaded : causeOf (exec .cks State.reset) = some .notLoaded
    ∧ causeOf (exec .cks (idle 4105 [])) = some .notLoaded := by decide

/-! ## The extractor -/

-- TE1 to TE14
theorem test_extract : extract 0xFD 0 2 = 1 ∧ extract 0xFD 2 2 = 3 ∧ extract 0x3A 0 3 = 2 ∧ extract 0x3A 3 4 = 7
    ∧ extract 0xFF 3 4 = 15 ∧ extract 0x1F 2 3 = 7 ∧ extract 0x3F 1 5 = 31 ∧ extract 0x40 1 5 = 0
    ∧ extract 0xA5 0 8 = 0xA5 ∧ extract 0x80 7 1 = 1 ∧ extract 0x35 1 3 = 2 ∧ extract 0xF5 4 4 = 15 := by decide
-- the example of R105, TX2
theorem test_xbf : resOf (exec (.xbf 17 2 2) (okWith [(17, 0xFD)])) = some 3
    ∧ resOf (exec (.xbf 4103 0 8) (okWith [(4103, 0xF7)])) = some 0xF7 := by decide
-- TF5 to TF8, and BAD_OPERAND before NOT_VALIDATED
theorem test_xbf_faults : causeOf (exec (.xbf 6 0 0) State.reset) = some .badOperand
    ∧ causeOf (exec (.xbf 6 0 9) State.reset) = some .badOperand
    ∧ causeOf (exec (.xbf 6 4 5) State.reset) = some .badOperand
    ∧ causeOf (exec (.xbf 4104 0 8) State.reset) = some .badOperand
    ∧ causeOf (exec (.xbf 0 0 8) State.reset) = some .notValidated := by decide
-- the example of R113; P3: ALG, FB, OKS, PMS, NAME8 of voice 3
theorem test_xvf : resOf (exec (.xvf 0 16) (okWith [(122, 0x35)])) = some 2
    ∧ resOf (exec (.xvf 3 8) (okWith [(500, 0xFF)])) = some 31
    ∧ resOf (exec (.xvf 3 9) (okWith [(501, 0x0D)])) = some 5 ∧ resOf (exec (.xvf 3 10) (okWith [(501, 0x0D)])) = some 1
    ∧ resOf (exec (.xvf 3 17) (okWith [(506, 0x35)])) = some 3
    ∧ resOf (exec (.xvf 3 27) (okWith [(516, 0xFF)])) = some 0xFF := by decide
/-- Another admissible table: the pitch envelope comes first, the operator block begins at byte 8, and the breakpoint
field has 7 bits. -/
def otherTable : FieldTable where
  opBase := 8
  opSize := 17
  opt := optDefault.set 8 ⟨8, 0, 7⟩
  vt := vtDefault.map (fun p => if p.byte < 110 then { p with byte := p.byte - 102 } else p)

/-- The default table with one operator field, or one voice-level field, elsewhere. -/
def withOp (f : Fin 21) (p : FieldPos) : FieldTable := { fieldTable with opt := optDefault.set f.val p }
def withVoice (f : Fin 29) (p : FieldPos) : FieldTable := { fieldTable with vt := vtDefault.set f.val p }

-- R6: FIELD_TABLE is an argument; the breakpoint of operator 6 of voice 0 at 6 + 8 + 8, masked to 7 bits
theorem test_other_table : resOf ((coreWith otherTable).step { State.resetWith otherTable with
    status := .ok, len := 4104, buf := [(22, 0xE3)], host := [.command 0x70050008] }) = some 0x63
    ∧ resOf (step { okWith [(14, 0xE3)] with host := [.command 0x70050008] }) = some 0xE3 := by decide
-- R104 items 2 and 3: LC and RC on the same bits; a voice-level field in the curve byte of disk slot 5 (5 * 17 + 11);
-- RS and DET overlapping; a third field beside RS and DET
theorem test_not_admissible : ∀ T ∈ [withOp 12 ⟨11, 0, 2⟩, withOp 12 ⟨11, 1, 2⟩, withVoice 10 ⟨96, 7, 1⟩,
    withOp 14 ⟨12, 2, 4⟩, withOp 18 ⟨12, 7, 1⟩], ¬ Admissible T := by decide +kernel
-- LC and RC in the upper half of their byte; and log entry 14: EG_R2 on the bits of EG_R1
theorem test_admissible : Admissible { fieldTable with opt := (optDefault.set 11 ⟨11, 6, 2⟩).set 12 ⟨11, 4, 2⟩ }
    ∧ Admissible (withOp 1 ⟨0, 0, 8⟩) ∧ ¬ FieldsApart (withOp 1 ⟨0, 0, 8⟩) := by decide +kernel

-- TX7, TF11, TF12
theorem test_xvf_bounds : resOf (exec (.xvf 31 28) (okWith [(4101, 0x80)])) = some 0x80
    ∧ causeOf (exec (.xvf 0 29) State.reset) = some .badOperand
    ∧ causeOf (exec (.xvf 0 0) State.reset) = some .notValidated := by decide
-- P3: operator 1 at disk slot 5, operator 6 at slot 0; LC RC RS DET AMS KVS MODE FC FF
theorem test_xof : resOf (exec (.xof 3 0 0) (okWith [(475, 0x0A)])) = some 0x0A
    ∧ resOf (exec (.xof 3 5 0) (okWith [(390, 0x01)])) = some 0x01
    ∧ resOf (exec (.xof 3 0 11) (okWith [(486, 0xFD)])) = some 1 ∧ resOf (exec (.xof 3 0 12) (okWith [(486, 0xFD)])) = some 3
    ∧ resOf (exec (.xof 3 0 13) (okWith [(487, 0x3A)])) = some 2 ∧ resOf (exec (.xof 3 0 14) (okWith [(487, 0x3A)])) = some 7
    ∧ resOf (exec (.xof 3 0 15) (okWith [(488, 0x1F)])) = some 3 ∧ resOf (exec (.xof 3 0 16) (okWith [(488, 0x1F)])) = some 7
    ∧ resOf (exec (.xof 3 0 18) (okWith [(490, 0x3F)])) = some 1 ∧ resOf (exec (.xof 3 0 19) (okWith [(490, 0x3F)])) = some 31
    ∧ resOf (exec (.xof 3 0 20) (okWith [(491, 0x4D)])) = some 0x4D := by decide
-- TX10, TX11, TF9, TF10, TF13
theorem test_xof_bounds : resOf (exec (.xof 31 0 20) (okWith [(4075, 0x11)])) = some 0x11
    ∧ resOf (exec (.xof 31 5 20) (okWith [(3990, 0x22)])) = some 0x22
    ∧ causeOf (exec (.xof 2 6 0) State.reset) = some .badOperand
    ∧ causeOf (exec (.xof 0 0 21) State.reset) = some .badOperand
    ∧ causeOf (exec (.xof 0 7 63) State.reset) = some .badOperand := by decide
-- TS4: operator 1 of a voice is decoded from disk slot 5
theorem test_decode_voice : (decodeVoice fieldTable ((List.replicate 128 0).set 97 0x3A)).map
    (fun V => (V.op[0]?.map (fun o => o[14]?), V.op[1]?.map (fun o => o[14]?))) = some (some (some 7), some (some 0)) := by
  decide +kernel
theorem test_field_names : opFieldNames.length = 21 ∧ voiceFieldNames.length = 29
    ∧ opFieldNames[14]? = some "DET" ∧ voiceFieldNames[16]? = some "LFO_WAVE"
    ∧ voiceFieldNames[19]? = some "NAME0" := by decide

/-! ## Codes, steps, the assembler -/

-- R16, R131, R20
theorem test_codes : statusCode .errChecksum = 9 ∧ statusCode .errSize = 2 ∧ statusCode .ok = 1
    ∧ causeCode .illegalCmd = 1 ∧ causeCode .notLoaded = 5 ∧ phaseOf .idle = .loading ∧ phaseOf .ok = .valid
    ∧ phaseOf .errSize = .rejected ∧ phaseOf .errChecksum = .rejected := by decide
-- TF15: an illegal word, then CLR and LDB 1 are ignored
theorem test_first_fault_kept : core.run 3 { State.reset with host := [.command 0x80000000, .command 0x10000000,
    .command 0x20000001] } = .next { State.reset with fault := .illegalCmd } := by rfl
-- the register port, and reset after a fault
theorem test_ports : core.run 4 { State.reset with host := [.command 0x200000F0, .readReg 2, .command 0x80000000,
    .readReg 1] } = .next { State.reset with buf := [(0, 0xF0)], len := 1, fault := .illegalCmd, seen := [1, 1] } := by
  rfl
theorem test_reset_event : step { okWith [(3, 9)] with fault := .badOperand, host := [.reset], seen := [7] }
    = .next { State.reset with seen := [7] } := by rfl
theorem test_fetch_word : lenOf (step (State.reset.withFetchWord 32 0x200000F0)) = some 1
    ∧ causeOf (step (State.reset.withFetchWord 32 0x60000000)) = some .notValidated
    ∧ causeOf (step (State.reset.withFetchWord 32 0x20000100)) = some .illegalCmd := by decide
theorem test_assembler : assembleLine "XOF 3, 0, DET ; detune".toList = some [.xof 3 0 14]
    ∧ assembleLine "LDB 0xF0".toList = some [.ldb 0xF0] ∧ assembleLine "XVF 31,NAME9".toList = some [.xvf 31 28]
    ∧ assembleLine "  ; nothing".toList = some [] ∧ assembleLine "XBF 9000, 0, 8".toList = none := by decide
-- R60
theorem test_pseudo : assembleLine "RDB 4102".toList = some [.xbf 4102 0 8]
    ∧ assembleLine "XOD 3, 5, EG_R1".toList = some [.xof 3 0 0] ∧ assembleLine "XNM 2, 9".toList = some [.xvf 2 28]
    ∧ assembleLine "LOADMSG 0xF0, 67".toList = some [.clr, .ldb 0xF0, .ldb 0x43]
    ∧ expand (.xod 0 6 0) = none ∧ expand (.xnm 0 10) = none := by decide

/-! ## Whole messages in the buffer -/

/-- A message of at most 4104 bytes loaded, not yet validated. -/
def loaded (raw : List Byte) : State := { State.reset with buf := imageOf 0 raw, len := BitVec.ofNat 16 raw.length }

/-- `M0` loaded and validated (TV1). -/
def okState : State := { loaded (message 0 0) with status := .ok }

/-- `M0` with a wrong stored checksum, loaded and validated (TV9). -/
def badState : State := { loaded (message 0 0x55) with status := .errChecksum }

/-- Three bytes loaded, then validated (TV17). -/
def shortState : State := { loaded [0xF0, 0x43, 0x00] with status := .errSize }

theorem message_length (a b : Byte) : (message a b).length = 4104 := by
  unfold message
  rw [List.length_append, List.length_append, List.length_replicate]
  rfl

theorem message_read (a b : Byte) (x : Nat) : (imageOf 0 (message a b)).read x = (message a b)[x]? := by
  simp [imageOf_read]

theorem message_bytes (a b : Byte) : (imageOf 0 (message a b)).bytes 0 4104 = some (message a b) := by
  rw [imageOf_bytes _ 0 4104 (by rw [message_length]), List.drop_zero,
    List.take_of_length_le (by rw [message_length])]

theorem message_payload (a b : Byte) : (imageOf 0 (message a b)).bytes 6 4096 = some (payloadOf (message a b)) :=
  imageOf_bytes _ 6 4096 (by rw [message_length]; omega)

theorem loaded_written {raw : List Byte} (h : raw.length ≤ 4104) (a : Nat) :
    ((imageOf 0 raw).read a).isSome = decide (a < min (BitVec.ofNat 16 raw.length).toNat 4104) := by
  rw [imageOf_read]
  have h2 : (BitVec.ofNat 16 raw.length).toNat = raw.length := by
    rw [BitVec.toNat_ofNat]
    omega
  rw [h2]
  by_cases ha : a < raw.length
  · rw [if_pos (by omega), Nat.sub_zero, List.getElem?_eq_getElem ha]
    simp only [Option.isSome_some]
    exact (decide_eq_true (by omega)).symm
  · rw [if_pos (by omega), Nat.sub_zero, List.getElem?_eq_none (by omega)]
    simp only [Option.isSome_none]
    exact (decide_eq_false (by omega)).symm

theorem fieldTable_admissible : Admissible State.reset.table := by decide +kernel

theorem fieldTable_apart : FieldsApart State.reset.table := by decide +kernel

theorem loaded_inv {raw : List Byte} (h : raw.length ≤ 4104) : (loaded raw).Inv where
  bufWf := imageOf_wf (by omega)
  written := loaded_written h
  okVerdict := fun hs => by cases hs
  badChecksum := fun hs => by cases hs
  ckexpLow := Nat.zero_le _
  ckexpZero := fun _ _ => rfl
  verdictStands := fun hs => absurd rfl hs
  resZero := fun _ => rfl
  tableAdmissible := fieldTable_admissible

theorem message_loaded_inv (a b : Byte) : (loaded (message a b)).Inv := loaded_inv (by rw [message_length])

theorem loaded_message_len (a b : Byte) : (loaded (message a b)).len = 4104 := by
  simp only [loaded, message_length]
  rfl

theorem okState_inv : okState.Inv where
  bufWf := (message_loaded_inv 0 0).bufWf
  written := (message_loaded_inv 0 0).written
  okVerdict := fun _ => ⟨loaded_message_len 0 0, ⟨_, message_bytes 0 0, by decide +kernel⟩, by
    show (imageOf 0 (message 0 0)).read 4102 = some 0
    rw [message_read]
    decide +kernel⟩
  badChecksum := fun hs => by cases hs
  ckexpLow := Nat.zero_le _
  ckexpZero := fun _ _ => rfl
  verdictStands := fun _ => State.applyVerdict_eq_next.2 (Or.inr ⟨loaded_message_len 0 0, _, message_bytes 0 0, by
    rw [show validate (message 0 0) = (.ok, some 0) by decide +kernel]
    rfl⟩)
  resZero := fun _ => rfl
  tableAdmissible := fieldTable_admissible

theorem badState_inv : badState.Inv where
  bufWf := (message_loaded_inv 0 0x55).bufWf
  written := (message_loaded_inv 0 0x55).written
  okVerdict := fun hs => by cases hs
  badChecksum := fun _ => ⟨loaded_message_len 0 0x55, ⟨_, message_payload 0 0x55, by decide +kernel⟩, by
    show (imageOf 0 (message 0 0x55)).read 4102 ≠ some 0
    rw [message_read]
    decide +kernel⟩
  ckexpLow := Nat.zero_le _
  ckexpZero := fun _ h => absurd rfl h
  verdictStands := fun _ => State.applyVerdict_eq_next.2 (Or.inr ⟨loaded_message_len 0 0x55, _, message_bytes 0 0x55, by
    rw [show validate (message 0 0x55) = (.errChecksum, some 0) by decide +kernel]
    rfl⟩)
  resZero := fun _ => rfl
  tableAdmissible := fieldTable_admissible

theorem shortState_inv : shortState.Inv where
  bufWf := (loaded_inv (raw := [0xF0, 0x43, 0x00]) (by decide)).bufWf
  written := (loaded_inv (raw := [0xF0, 0x43, 0x00]) (by decide)).written
  okVerdict := fun hs => by cases hs
  badChecksum := fun hs => by cases hs
  ckexpLow := Nat.zero_le _
  ckexpZero := fun _ _ => rfl
  verdictStands := fun _ => rfl
  resZero := fun _ => rfl
  tableAdmissible := fieldTable_admissible

-- TV1, TV9: VAL on a whole message in the buffer
theorem test_val_whole : exec .val (loaded (message 0 0)) = .next okState
    ∧ exec .val (loaded (message 0 0x55)) = .next badState := by
  have h1 : validate (message 0 0) = (.ok, some 0) := by decide +kernel
  have h2 : validate (message 0 0x55) = (.errChecksum, some 0) := by decide +kernel
  have hv : ∀ s, exec .val s = s.applyVerdict := fun _ => rfl
  rw [hv, hv]
  refine ⟨State.applyVerdict_eq_next.2 (Or.inr ⟨loaded_message_len 0 0, _, message_bytes 0 0, ?_⟩),
    State.applyVerdict_eq_next.2 (Or.inr ⟨loaded_message_len 0 0x55, _, message_bytes 0 0x55, ?_⟩)⟩
  · simp only [okState, h1, Option.getD_some, loaded, State.reset]
  · simp only [badState, h2, Option.getD_some, loaded, State.reset]
-- TQ2 on the loaded message: the checksum of a payload that begins with 1
theorem test_cks_whole : exec .cks (loaded (message 1 0x7F)) = .next { loaded (message 1 0x7F) with res := 0x7F } := by
  simp only [exec, execCks]
  rw [if_neg (by simpa using loaded_message_len 1 0x7F),
    State.readRange_of_bytes (s := loaded (message 1 0x7F)) (a := 6) (n := 4096) (by decide) (message_payload 1 0x7F),
    show checksum7 (payloadOf (message 1 0x7F)) = 0x7F by decide +kernel]
  rfl

/-! ## Witnesses: values that meet the hypotheses of each statement, at the boundaries of its clauses -/

/-- A block whose host presents one event and nothing else. -/
def facing (e : HostEvent) (s : State) : State := { s with host := [e] }

/-- A block that has faulted. -/
def faulted : State := State.reset.raise .illegalCmd

theorem message_written (a b : Byte) (x : Nat) (h : x < 4104) : ((loaded (message a b)).buf.read x).isSome = true := by
  show ((imageOf 0 (message a b)).read x).isSome = true
  rw [message_read, List.getElem?_eq_getElem (by rw [message_length]; exact h)]
  rfl

theorem okState_read (x : Nat) : okState.buf.read x = (message 0 0)[x]? := message_read 0 0 x

theorem okState_record : okState.buf.bytes (6 + 128 * 31) 128 = some (((message 0 0).drop 3974).take 128) :=
  imageOf_bytes _ 3974 128 (by rw [message_length]; omega)

theorem witness_EncodeOfDecode : decode 0x5080100F = .ok (.xbf 4111 0 8) := by decide
theorem witness_DecodeAgreesWithOpcodeMap : decode 0x20000000 = .ok (.ldb 0)
    ∧ opcodeRow (.ldb 0) ∈ opcodeRows ∧ selectsRow 0x200000FF (opcodeRow (.ldb 0)) = true := by decide
theorem witness_OperandFields : decode 0x200000FF = .ok (.ldb 0xFF) ∧ decode 0x50F71FFF = .ok (.xbf 0x1FFF 7 15)
    ∧ decode 0x60001F3F = .ok (.xvf 31 63) ∧ decode 0x70071F3F = .ok (.xof 31 7 63)
    ∧ (Instr.xvf 0 29).wellFormed = false ∧ (Instr.xvf 0 28).wellFormed = true
    ∧ State.reset.fault ≠ .badOperand ∧ causeOf (exec (.xvf 0 28) State.reset) = some .notValidated := by decide
theorem witness_IllegalWordsFault : (facing (.command 0x80000000) State.reset).host = HostEvent.command 0x80000000 :: []
    ∧ State.reset.fault = .none ∧ 8 ≤ (0x80000000 : Word).toNat / 2 ^ 28
    ∧ (opcodeRow .nop ∈ opcodeRows ∧ (0x00000001 : Word).toNat / 2 ^ 28 = (opcodeRow .nop).pattern.toNat / 2 ^ 28
      ∧ (0x00000001 : Word) &&& ((opcodeRow .nop).mask &&& 0x0FFFFFFF) ≠ 0) := by decide
theorem witness_StepRunsDecodedCommand :
    (facing (.command 0x30000000) State.reset).host = HostEvent.command 0x30000000 :: []
    ∧ (facing (.command 0x30000000) State.reset).fault = .none ∧ decode 0x30000000 = .ok .val := by decide
theorem witness_FaultedBlockIgnoresCommands : faulted.fault ≠ .none
    ∧ { faulted with host := [HostEvent.command 0, HostEvent.reset] }.host = [(0 : Word)].map HostEvent.command ++ [HostEvent.reset]
    ∧ (facing (.readReg 1) faulted).host = HostEvent.readReg 1 :: [] ∧ (7 : RegNumber) ≠ 1 := by decide
theorem witness_OnlyResetClearsFault : step (facing (.command 0x10000000) faulted) = .next faulted
    ∧ faulted.fault ≠ .none := ⟨rfl, by decide⟩
theorem witness_ResetState : (facing .reset faulted).host = HostEvent.reset :: []
    ∧ step (facing .reset faulted) = .next State.reset ∧ (facing .reset faulted).fault ≠ .none
    ∧ State.reset.fault = .none := ⟨rfl, rfl, by decide, rfl⟩
theorem witness_ResetKeepsHostSide :
    State.host { faulted with seen := [7], host := [.reset, .reset] } = HostEvent.reset :: [HostEvent.reset] := rfl
theorem witness_FieldTableIsAnArgument : step (facing .reset faulted) = .next State.reset
    ∧ (∀ voice field, Instr.nop ≠ .xvf voice field) ∧ (∀ voice opr field, Instr.nop ≠ .xof voice opr field)
    ∧ exec .nop State.reset = .next State.reset
    ∧ (coreWith otherTable).run 1 { State.resetWith otherTable with host := [.command 0x30000000] }
      = .next { State.resetWith otherTable with status := .errSize } :=
  ⟨rfl, fun _ _ => nofun, fun _ _ _ => nofun, rfl, rfl⟩
theorem witness_RegisterPort : ∀ n : RegNumber, (facing (.readReg n) badState).host = HostEvent.readReg n :: [] :=
  fun _ => rfl
theorem witness_NopChangesNothing :
    (facing (.command 0x08000000) State.reset).host = HostEvent.command 0x08000000 :: [] ∧ State.reset.fault = .none
    ∧ (0x08000000 : Word).toNat / 2 ^ 28 = 0 ∧ (0x08000000 : Word) ≠ 0 := by decide
theorem witness_ClrEmptiesBlock : shortState.fault = .none ∧ shortState.Inv
    ∧ exec .clr shortState = .next shortState.emptied ∧ phaseOf shortState.status ≠ .loading
    ∧ phaseOf shortState.emptied.status ≠ phaseOf shortState.status
    ∧ (loaded []).Inv ∧ phaseOf (loaded []).status = .loading ∧ (loaded []).len = 0 :=
  ⟨rfl, shortState_inv, rfl, by decide, by decide, loaded_inv (by decide), by decide, by decide⟩
theorem witness_LdbAppendsByte : shortState.status ≠ .idle ∧ (idle 0 []).status = .idle ∧ (idle 4103 []).status = .idle
    ∧ (idle 4104 []).status = .idle ∧ (idle 65535 []).status = .idle := by decide
theorem witness_LdbFrame : exec (.ldb 1) shortState = .next (shortState.raise .bufLocked)
    ∧ exec (.ldb 1) (idle 4103 []) = .next ((idle 4103 []).appended 1) ∧ loadAddr (idle 4103 []) = some 4103
    ∧ exec (.ldb 1) (idle 4104 []) = .next ((idle 4104 []).appended 1) ∧ loadAddr (idle 4104 []) = none :=
  ⟨rfl, rfl, rfl, rfl, rfl⟩
theorem witness_ControlFrames : exec .nop shortState = .next shortState ∧ exec .clr shortState = .next shortState.emptied
    ∧ exec .val (loaded (message 0 0)) = .next okState := ⟨rfl, rfl, test_val_whole.1⟩
theorem witness_LoadingStoresInArrivalOrder : ∀ m : List Byte,
    { State.reset with host := m.map (fun b => HostEvent.command (encode (.ldb b))) ++ [HostEvent.reset] }.status = .idle
    ∧ State.reset.fault = .none ∧ State.reset.len = 0 ∧ State.reset.buf = [] := fun _ => ⟨rfl, rfl, rfl, rfl⟩
theorem witness_LoadThenValGivesVerdict : (message 0 0).length = 4104 ∧ ([0xF0] : List Byte).length ≠ 4104
    ∧ State.reset.status = .idle ∧ State.reset.fault = .none ∧ State.reset.len = 0 ∧ State.reset.buf = [] :=
  ⟨message_length 0 0, by decide, rfl, rfl, rfl, rfl⟩
theorem witness_ValRecordsVerdict : (idle 4103 []).len ≠ 4104 ∧ (idle 4105 []).len ≠ 4104
    ∧ (loaded (message 0 0)).len = 4104 ∧ (loaded (message 0 0)).buf.bytes 0 4104 = some (message 0 0)
    ∧ (∀ a, a < 4104 → ((loaded (message 0 0)).buf.read a).isSome = true)
    ∧ exec .val (loaded (message 0 0)) = .next okState :=
  ⟨by decide, by decide, loaded_message_len 0 0, message_bytes 0 0, message_written 0 0, test_val_whole.1⟩
theorem witness_ValIsIdempotent : exec .val (loaded (message 0 0x55)) = .next badState
    ∧ exec .val (idle 3 []) = .next { idle 3 [] with status := .errSize } := ⟨test_val_whole.2, rfl⟩
theorem witness_ValidateFirstFailureWins :
    ((message 0 0).set 0 0)[0]? ≠ some 0xF0#8
    ∧ (((message 0 0).set 1 0x44)[0]? = some 0xF0#8 ∧ ((message 0 0).set 1 0x44)[1]? ≠ some 0x43#8)
    ∧ (((message 0 0).set 2 1)[1]? = some 0x43#8 ∧ ((message 0 0).set 2 1)[2]? ≠ some 0x00#8)
    ∧ (((message 0 0).set 3 0)[2]? = some 0x00#8 ∧ ((message 0 0).set 3 0)[3]? ≠ some 0x09#8)
    ∧ (((message 0 0).set 5 1).take 4 = [0xF0#8, 0x43#8, 0x00#8, 0x09#8] ∧ ((message 0 0).set 5 1)[5]? ≠ some 0x00#8)
    ∧ (((message 0 0).set 4103 0).take 6 = [0xF0#8, 0x43#8, 0x00#8, 0x09#8, 0x20#8, 0x00#8]
      ∧ ((message 0 0).set 4103 0)[4103]? ≠ some 0xF7#8)
    ∧ ((message 0 0x55)[4103]? = some 0xF7#8
      ∧ (message 0 0x55)[4102]? ≠ some (checksum7 (((message 0 0x55).drop 6).take 4096)))
    ∧ (message 0 0)[4102]? = some (checksum7 (((message 0 0).drop 6).take 4096)) := by decide +kernel
theorem witness_ChecksumIgnoresAccumulatorWidth : 7 ≤ 7 ∧ 7 ≤ 19 := by decide
theorem witness_ChecksumSeesLowSevenBits : ([0x01, 0x81] : List Byte)[1]? = some 0x81
    ∧ (0x01 : Byte).toNat % 128 = (0x81 : Byte).toNat % 128 := by decide
theorem witness_PayloadChangeRejected : (message 0 0).length = 4104 ∧ (validate (message 0 0)).1 = .ok
    ∧ (message 0 0)[6]? = some 0 ∧ (message 0 0)[4101]? = some 0 ∧ (1 : Byte).toNat % 128 ≠ (0 : Byte).toNat % 128 :=
  ⟨message_length 0 0, by decide +kernel, by decide +kernel, by decide +kernel, by decide⟩
theorem witness_StoredChecksumComparedWhole : (message 0 0x80).length = 4104
    ∧ (message 0 0x80).take 6 = [0xF0#8, 0x43#8, 0x00#8, 0x09#8, 0x20#8, 0x00#8]
    ∧ (message 0 0x80)[4103]? = some 0xF7#8 ∧ (message 0 0x80)[4102]? = some 0x80 ∧ 128 ≤ (0x80 : Byte).toNat :=
  ⟨message_length 0 0x80, by decide +kernel, by decide +kernel, by decide +kernel, by decide⟩
theorem witness_OneStoredByteValidates : (message 1 0).length = 4104
    ∧ (message 1 0).take 6 = [0xF0#8, 0x43#8, 0x00#8, 0x09#8, 0x20#8, 0x00#8] ∧ (message 1 0)[4103]? = some 0xF7#8 :=
  ⟨message_length 1 0, by decide +kernel, by decide +kernel⟩
theorem witness_CksRecomputes : (idle 0 []).len ≠ 4104 ∧ (loaded (message 1 0x7F)).len = 4104
    ∧ (loaded (message 1 0x7F)).buf.bytes 6 4096 = some (payloadOf (message 1 0x7F))
    ∧ exec .cks (loaded (message 1 0x7F)) = .next { loaded (message 1 0x7F) with res := 0x7F } :=
  ⟨by decide, loaded_message_len 1 0x7F, message_payload 1 0x7F, test_cks_whole⟩
theorem witness_CksAgreesWithVerdict : okState.Inv ∧ okState.status = .ok := ⟨okState_inv, rfl⟩
theorem witness_ExtractTakesBits : 1 ≤ 1 ∧ 7 + 1 ≤ 8 ∧ 1 ≤ 8 ∧ 0 + 8 ≤ 8 := by decide
theorem witness_XbfExtracts : 4103 < (4104 : BitVec 13).toNat ∧ (0 : BitVec 4).toNat = 0 ∧ 8 < (9 : BitVec 4).toNat
    ∧ 8 < (4 : BitVec 3).toNat + (5 : BitVec 4).toNat
    ∧ ((4103 : BitVec 13).toNat ≤ 4103 ∧ 1 ≤ (1 : BitVec 4).toNat ∧ (7 : BitVec 3).toNat + (1 : BitVec 4).toNat ≤ 8)
    ∧ badState.status ≠ .ok ∧ okState.status = .ok ∧ okState.buf.read (4103 : BitVec 13).toNat = some 0xF7 := by
  refine ⟨by decide, by decide, by decide, by decide, by decide, by decide, rfl, ?_⟩
  rw [okState_read]
  decide +kernel
theorem witness_XvfExtracts : Admissible okState.table ∧ Admissible (State.resetWith otherTable).table
    ∧ 28 < (29 : BitVec 6).toNat
    ∧ okState.table.vt[(28 : BitVec 6).toNat]? = some ⟨127, 0, 8⟩ ∧ badState.status ≠ .ok ∧ okState.status = .ok
    ∧ okState.buf.read (6 + 128 * (31 : BitVec 5).toNat + 127) = some 0
    ∧ okState.buf.bytes (6 + 128 * (31 : BitVec 5).toNat) 128 = some (((message 0 0).drop 3974).take 128)
    ∧ (decodeVoice okState.table (((message 0 0).drop 3974).take 128)).isSome = true := by
  refine ⟨fieldTable_admissible, by decide +kernel, by decide, rfl, by decide, rfl, ?_, okState_record, ?_⟩
  · rw [okState_read]
    decide +kernel
  · show (decodeVoice fieldTable _).isSome = true
    decide +kernel
theorem witness_XofExtracts : 5 < (6 : BitVec 3).toNat ∧ 20 < (21 : BitVec 6).toNat ∧ (5 : BitVec 3).toNat ≤ 5
    ∧ okState.table.opt[(20 : BitVec 6).toNat]? = some ⟨16, 0, 8⟩
    ∧ (State.resetWith otherTable).table.opt[(8 : BitVec 6).toNat]? = some ⟨8, 0, 7⟩
    ∧ okState.buf.read (6 + 128 * (31 : BitVec 5).toNat + 0 + 17 * (5 - (0 : BitVec 3).toNat) + 16) = some 0 := by
  refine ⟨by decide, by decide, by decide, rfl, rfl, ?_⟩
  rw [okState_read]
  decide +kernel
theorem witness_DefaultTableExtractions : vtDefault[(28 : BitVec 6).toNat]? = some ⟨127, 0, 8⟩
    ∧ optDefault[(20 : BitVec 6).toNat]? = some ⟨16, 0, 8⟩ ∧ (okWith [(4101, 7), (4075, 8)]).status = .ok
    ∧ (okWith [(4101, 7), (4075, 8)]).table = fieldTable
    ∧ (okWith [(4101, 7), (4075, 8)]).buf.read (6 + 128 * (31 : BitVec 5).toNat + 127) = some 7 := by decide
theorem witness_NamedExtractionIsRaw : Admissible (okWith []).table
    ∧ (okWith []).table.vt[(0 : BitVec 6).toNat]? = some ⟨102, 0, 8⟩
    ∧ (5 : BitVec 3).toNat ≤ 5 ∧ (okWith []).table.opt[(14 : BitVec 6).toNat]? = some ⟨12, 3, 4⟩ :=
  ⟨fieldTable_admissible, by decide, by decide, by decide⟩
theorem witness_NamedAddressesStayInVoice : Admissible otherTable
    ∧ voiceFieldPos otherTable 28 = some ⟨127, 0, 8⟩ ∧ opFieldPos otherTable 20 = some ⟨16, 0, 8⟩ := by
  refine ⟨by decide +kernel, by decide +kernel, by decide +kernel⟩
theorem witness_DecodeVoiceFields : (List.replicate 17 (0 : Byte)).length = otherTable.opSize
    ∧ (List.replicate 128 (0 : Byte)).length = 128 ∧ otherTable.opt[20]? = some ⟨16, 0, 8⟩ := by decide
theorem witness_NameBytesPassThrough : 9 < 10 ∧ Admissible (okWith [(4101, 0x80)]).table
    ∧ (okWith [(4101, 0x80)]).status = .ok ∧ (okWith [(4101, 0x80)]).buf.read (6 + 128 * (31 : BitVec 5).toNat + 118 + 9) = some 0x80 :=
  ⟨by decide, fieldTable_admissible, by decide, by decide⟩
theorem witness_FieldsIndependent : (∀ k, 3 ≤ k → k < 3 + 4 → (0x3A : Byte).getLsbD k = (0xBA : Byte).getLsbD k)
    ∧ Admissible otherTable ∧ FieldsApart otherTable ∧ 42 ≠ 43
    ∧ (voicePositions otherTable)[42]? = some ⟨20, 0, 3⟩ ∧ (voicePositions otherTable)[43]? = some ⟨20, 3, 4⟩
    ∧ (∀ k, k < 8 → (k < 3 ∨ 3 + 4 ≤ k) → (0x02 : Byte).getLsbD k = (0x3A : Byte).getLsbD k) := by
  refine ⟨fun k h1 h2 => ?_, by decide +kernel, by decide +kernel, by decide, by decide +kernel, by decide +kernel,
    by decide⟩
  interval_cases k <;> decide
/-- Items 1, 2, 3, 4 and 6 on one extraction of `M0`; item 5 with the default table. -/
theorem witness_ExtractionLawsHold : okState.Inv ∧ xofAsXbf okState.table 31 0 20 = some (.xbf 4075 0 8)
    ∧ xvfAsXbf okState.table 0 17 = some (.xbf 122 4 4) ∧ fieldWidth okState.table (.xvf 0 17) = some 4
    ∧ isExtraction (.xof 31 0 20) = true ∧ (Instr.xof 31 0 20).wellFormed = true
    ∧ opFieldPos okState.table 20 = some ⟨16, 0, 8⟩ ∧ okState.status = .ok ∧ FieldsApart okState.table
    ∧ (voicePositions okState.table)[15]? = some ⟨116, 0, 1⟩ ∧ (voicePositions okState.table)[16]? = some ⟨116, 1, 3⟩ :=
  ⟨okState_inv, by decide, by decide, by decide, by decide, by decide, by decide, rfl, fieldTable_apart,
    by decide +kernel, by decide +kernel⟩
theorem witness_ResultCommandFrames : writesRes (.xbf 17 2 2) = true
    ∧ exec (.xbf 17 2 2) (okWith [(17, 0xFD)]) = .next ((okWith [(17, 0xFD)]).putRes 3)
    ∧ exec .cks State.reset = .next (State.reset.raise .notLoaded) := ⟨rfl, rfl, rfl⟩
theorem witness_ExtractionOrderIrrelevant : exec (.xbf 17 2 2) (okWith [(17, 0xFD)]) = .next ((okWith [(17, 0xFD)]).putRes 3)
    ∧ exec (.xbf 17 0 2) (okWith [(17, 0xFD)]) = .next ((okWith [(17, 0xFD)]).putRes 1)
    ∧ (okWith [(17, 0xFD)]).fault = .none ∧ ((okWith [(17, 0xFD)]).putRes 3).fault = .none
    ∧ ((okWith [(17, 0xFD)]).putRes 1).fault = .none := ⟨rfl, rfl, rfl, rfl, rfl⟩
theorem witness_LegalExtractionCompletes : okState.Inv ∧ okState.status = .ok ∧ writesRes (.xof 31 5 20) = true
    ∧ (Instr.xof 31 5 20).wellFormed = true := ⟨okState_inv, rfl, rfl, by decide⟩
theorem witness_FaultIsPrecise : ([] : List HostEvent) = ([] : List Word).map HostEvent.command ++ []
    ∧ step (facing (.command 0x60000000) shortState) = .next (shortState.raise .notValidated)
    ∧ (facing (.command 0x60000000) shortState).fault = .none ∧ (shortState.raise .notValidated).fault ≠ .none :=
  ⟨rfl, rfl, rfl, by decide⟩
theorem witness_FaultCauses : step (facing (.command 0x60000000) shortState) = .next (shortState.raise .notValidated)
    ∧ step (facing (.command 0x00000000) shortState) = .next shortState
    ∧ step (facing (.command 0x200000FF) shortState) = .next (shortState.raise .bufLocked)
    ∧ step (facing (.command 0x40000000) shortState) = .next (shortState.raise .notLoaded)
    ∧ step (facing (.command 0x7007003F) shortState) = .next (shortState.raise .badOperand)
    ∧ step (facing (.command 0xFFFFFFFF) shortState) = .next (shortState.raise .illegalCmd) :=
  ⟨rfl, rfl, rfl, rfl, rfl, rfl⟩
theorem witness_PhaseTable_reset : (facing .reset State.reset).Inv
    ∧ (facing .reset State.reset).host = HostEvent.reset :: [] :=
  have h : (loaded []).Inv := loaded_inv (by decide)
  ⟨⟨h.bufWf, h.written, h.okVerdict, h.badChecksum, h.ckexpLow, h.ckexpZero, fun hs => absurd rfl hs, h.resZero,
    h.tableAdmissible⟩, rfl⟩
theorem witness_PhaseTable : (loaded []).Inv ∧ (loaded []).len.toNat < 4104 ∧ (loaded (message 0 0)).Inv ∧ (loaded (message 0 0)).status = .idle
    ∧ (loaded (message 0 0)).len = 4104 ∧ okState.Inv ∧ okState.status = .ok ∧ badState.Inv
    ∧ badState.status = .errChecksum ∧ badState.len = 4104 ∧ shortState.Inv ∧ shortState.len ≠ 4104
    ∧ writesRes (.xvf 0 0) = true ∧ Instr.xvf 0 0 ≠ .cks ∧ (Instr.xvf 0 0).wellFormed = true :=
  ⟨loaded_inv (by decide), by decide, message_loaded_inv 0 0, rfl, loaded_message_len 0 0, okState_inv, rfl, badState_inv, rfl, loaded_message_len 0 0x55,
    shortState_inv, by decide, rfl, by decide, by decide⟩
theorem witness_BufferImmutableAfterVal : exec .val (loaded (message 0 0)) = .next okState ∧ shortState.status ≠ .idle
    ∧ step (facing (.command 0x20000009) shortState) = .next (shortState.raise .bufLocked)
    ∧ step (facing .reset shortState) = .next State.reset
    ∧ step (facing (.command 0x10000000) shortState) = .next State.reset := ⟨test_val_whole.1, by decide, rfl, rfl, rfl⟩
theorem witness_ResetIsSound : Admissible otherTable := by decide +kernel
theorem witness_StepKeepsInv : State.reset.withFetchWord 32 0x200000F0 = facing (.command 0x200000F0) State.reset
    ∧ (loaded []).Inv ∧ step (facing (.command 0x200000F0) (loaded [])) = .next ((loaded []).appended 0xF0) :=
  ⟨rfl, loaded_inv (by decide), rfl⟩
theorem witness_SoundStatesNeverStop : okState.Inv ∧ badState.Inv ∧ shortState.Inv :=
  ⟨okState_inv, badState_inv, shortState_inv⟩
theorem witness_PseudoCommands : (4103 : BitVec 13).toNat ≤ 4103 ∧ (okWith [(4103, 0xF7)]).status = .ok
    ∧ (okWith [(4103, 0xF7)]).buf.read (4103 : BitVec 13).toNat = some 0xF7 ∧ (5 : BitVec 3).toNat ≤ 5
    ∧ (9 : BitVec 4).toNat ≤ 9 := by decide

end Sys2Proof.Tests
end

section
/-! SUPPORT and PROOFS. Rules of the state (10_state): what a step does for each transaction of the host, which
commands can change STATUS, and what a sound state lets a command read. From these: reset (R24, R150), the phase table
(R20) and the register port (R14). -/

namespace Sys2Proof.Machine

open Sys2Proof.Config

variable {s t : State}

/-! ### The step, by transaction -/

theorem step_of_readReg {n : RegNumber} {rest : List HostEvent} (h : s.host = .readReg n :: rest) :
    step s = .next (State.takeRead { s with host := rest } n) := by
  simp [step, hostTurn, h, eventTurn]

theorem step_of_reset {rest : List HostEvent} (h : s.host = .reset :: rest) :
    step s = .next (State.takeReset { s with host := rest }) := by
  simp [step, hostTurn, h, eventTurn]

/-- A block that has faulted keeps its cause over every transaction but a reset (60_exceptions R136). -/
theorem step_keeps_fault (h : step s = .next t) (hf : s.fault ≠ .none) :
    t.fault = s.fault ∨ s.host.head? = some .reset := by
  rcases step_cases s with ⟨-, hs⟩ | ⟨w, rest, -, hs⟩ | ⟨n, rest, -, hs⟩ | ⟨rest, hh, -⟩
  · cases hs.symm.trans h
    exact Or.inl rfl
  · rcases commandTurn_cases exec w { s with host := rest } with ⟨-, hc⟩ | ⟨hn, -⟩ | ⟨hn, -⟩
    · cases (hs.trans hc).symm.trans h
      exact Or.inl rfl
    · exact absurd hn hf
    · exact absurd hn hf
  · cases hs.symm.trans h
    exact Or.inl rfl
  · exact Or.inr (by simp [hh])

theorem takeReset_sameBlock (s : State) : s.takeReset.sameBlock State.reset := ⟨rfl, rfl, rfl, rfl, rfl, rfl⟩

/-- Emptying an unfaulted block is a reset of the block: only FAULT tells the two apart. -/
theorem emptied_sameBlock (h : s.fault = .none) : s.emptied.sameBlock State.reset := ⟨rfl, rfl, rfl, h, rfl, rfl⟩

/-! ### Phases -/

theorem phaseOf_eq_loading_iff {st : Status} : phaseOf st = .loading ↔ st = .idle := by
  cases st <;> decide

/-! ### What a sound state lets a command read -/

/-- Once LEN has reached 4104 every cell of a sound state's buffer is written (20_memory R36). -/
theorem State.Inv.read_of_full (hs : s.Inv) (hl : s.len = 4104) {a : Nat} (ha : a < 4104) :
    ∃ b, s.buf.read a = some b := by
  have hw := hs.written a
  rw [hl, show min (4104 : BitVec 16).toNat 4104 = 4104 from rfl, decide_eq_true ha] at hw
  exact Option.isSome_iff_exists.1 hw

/-- The same of a run of cells inside the buffer. -/
theorem State.Inv.bytes_of_full (hs : s.Inv) (hl : s.len = 4104) {a n : Nat} (h : a + n ≤ 4104) :
    ∃ bs, s.buf.bytes a n = some bs :=
  Memory.bytes_of_written fun k hk => Option.isSome_iff_exists.2 (hs.read_of_full hl (by omega))

/-! ### The commands' effects on STATUS -/

theorem extractField_raises_or_putsRes {a bit width : Nat} (h : s.extractField a bit width = .next t) :
    (∃ c, t = s.raise c) ∨ ∃ v, t = s.putRes v := by
  rcases State.extractField_eq_next.1 h with ⟨-, ht⟩ | ⟨-, -, b, -, ht⟩
  · exact Or.inl ⟨_, ht⟩
  · exact Or.inr ⟨_, ht⟩

/-- A result command raises a fault or writes RES, and nothing else (10_state R19). -/
theorem exec_raises_or_putsRes {i : Instr} (hi : writesRes i = true) (h : exec i s = .next t) :
    (∃ c, t = s.raise c) ∨ ∃ v, t = s.putRes v := by
  cases i with
  | nop | clr | ldb | val => simp [writesRes] at hi
  | cks =>
    rcases execCks_eq_next.1 h with ⟨-, ht⟩ | ⟨-, p, -, ht⟩
    · exact Or.inl ⟨_, ht⟩
    · exact Or.inr ⟨_, ht⟩
  | xbf addr bitoff width =>
    rcases execXbf_eq_next.1 h with ⟨-, ht⟩ | ⟨-, h⟩
    · exact Or.inl ⟨_, ht⟩
    · exact extractField_raises_or_putsRes h
  | xvf voice field =>
    rcases execXvf_eq_next.1 h with ⟨-, ht⟩ | ⟨p, -, h⟩
    · exact Or.inl ⟨_, ht⟩
    · exact extractField_raises_or_putsRes h
  | xof voice opr field =>
    rcases execXof_eq_next.1 h with ⟨-, ht⟩ | ⟨-, p, -, h⟩
    · exact Or.inl ⟨_, ht⟩
    · exact extractField_raises_or_putsRes h

/-- CLR and VAL alone write STATUS (10_state R16). -/
theorem exec_keeps_status {i : Instr} (hclr : i ≠ .clr) (hval : i ≠ .val) (h : exec i s = .next t) :
    t.status = s.status := by
  have hr (hi : writesRes i = true) : t.status = s.status := by
    rcases exec_raises_or_putsRes hi h with ⟨c, rfl⟩ | ⟨v, rfl⟩
    · rfl
    · rfl
  cases i with
  | nop =>
    cases h
    rfl
  | clr => exact absurd rfl hclr
  | ldb b =>
    rcases execLdb_eq_next.1 h with ⟨-, rfl⟩ | ⟨-, rfl⟩
    · rfl
    · simp
  | val => exact absurd rfl hval
  | cks => exact hr rfl
  | xbf addr bitoff width => exact hr rfl
  | xvf voice field => exact hr rfl
  | xof voice opr field => exact hr rfl

/-- VAL leaves a verdict behind, and writes nothing but STATUS and CKEXP (41_validator R86). -/
theorem exec_val_writes_verdict (h : exec .val s = .next t) :
    t.status ≠ .idle ∧ t = { s with status := t.status, ckexp := t.ckexp } := by
  rcases State.applyVerdict_eq_next.1 h with ⟨-, rfl⟩ | ⟨-, raw, -, rfl⟩
  · exact ⟨by simp, rfl⟩
  · exact ⟨(validate_status raw).1, rfl⟩

/-- VAL gives a verdict in every sound state (20_memory R36): it reads the buffer only when all of it is written. -/
theorem State.Inv.exec_val_completes (hs : s.Inv) : ∃ t, exec .val s = .next t := by
  by_cases hl : s.len = 4104
  · obtain ⟨raw, hraw⟩ := hs.bytes_of_full hl (a := 0) (n := 4104) le_rfl
    exact ⟨_, State.applyVerdict_eq_next.2 (Or.inr ⟨hl, raw, hraw, rfl⟩)⟩
  · exact ⟨_, State.applyVerdict_eq_next.2 (Or.inl ⟨hl, rfl⟩)⟩

/-- CKS of a whole message writes RES in every sound state (41_validator R88). -/
theorem State.Inv.exec_cks_completes (hs : s.Inv) (hl : s.len = 4104) : ∃ v, exec .cks s = .next (s.putRes v) := by
  obtain ⟨p, hp⟩ := hs.bytes_of_full hl (a := 6) (n := 4096) (by decide)
  exact ⟨_, execCks_eq_next.2 (Or.inr ⟨hl, p, hp, rfl⟩)⟩

/-- What a command can do to the phase of a sound state (10_state R20). -/
theorem State.Inv.exec_phase (hs : s.Inv) {i : Instr} (h : exec i s = .next t) :
    phaseOf t.status = phaseOf s.status
    ∨ (i = .clr ∧ phaseOf t.status = .loading)
    ∨ (i = .val ∧ phaseOf s.status = .loading ∧ phaseOf t.status ≠ .loading) := by
  by_cases hclr : i = .clr
  · subst hclr
    cases h
    exact Or.inr (Or.inl ⟨rfl, rfl⟩)
  by_cases hval : i = .val
  · subst hval
    by_cases hidle : s.status = .idle
    · refine Or.inr (Or.inr ⟨rfl, phaseOf_eq_loading_iff.2 hidle, fun hp => ?_⟩)
      exact (exec_val_writes_verdict h).1 (phaseOf_eq_loading_iff.1 hp)
    · cases (hs.verdictStands hidle).symm.trans h
      exact Or.inl rfl
  · exact Or.inl (congrArg phaseOf (exec_keeps_status hclr hval h))

/-! ### Extractions with legal operands -/

theorem voiceBase_le (voice : BitVec 5) : voiceBase voice.toNat ≤ 3974 := by
  have := voice.isLt
  simp only [voiceBase, payloadOff, voiceSize]
  omega

/-- A voice-level field of an admissible table lies in the buffer. -/
theorem voiceFieldAddr_lt {T : FieldTable} (hT : Admissible T) (voice : BitVec 5) {field : BitVec 6} {p : FieldPos}
    (hp : voiceFieldPos T field = some p) : voiceFieldAddr voice p < 4104 := by
  have hb := voiceBase_le voice
  have hm : p ∈ T.vt.toList := by
    rw [voiceFieldPos_eq] at hp
    exact Vector.mem_toList_iff.2 (Vector.mem_of_getElem? hp)
  have := (admissible_vt hT hm).2
  simp only [voiceFieldAddr]
  omega

/-- An operator field of an admissible table lies in the buffer. -/
theorem opFieldAddr_lt {T : FieldTable} (hT : Admissible T) (voice : BitVec 5) (opr : BitVec 3) {field : BitVec 6}
    {p : FieldPos} (hp : opFieldPos T field = some p) : opFieldAddr T voice opr p < 4104 := by
  have hb := voiceBase_le voice
  have hm : p ∈ T.opt.toList := by
    rw [opFieldPos_eq] at hp
    exact Vector.mem_toList_iff.2 (Vector.mem_of_getElem? hp)
  have hd : diskSlot opr.toNat < 6 := by
    simp only [diskSlot]
    omega
  have hr : T.opBase + T.opSize * diskSlot opr.toNat + p.byte ≤ 127 :=
    (admissible_voicePositions hT (mem_voicePositions.2 (Or.inr ⟨_, hd, p, hm, rfl⟩))).2
  simp only [opFieldAddr]
  omega

theorem exec_xvf_of_pos {voice : BitVec 5} {field : BitVec 6} {p : FieldPos}
    (hp : voiceFieldPos s.table field = some p) :
    exec (.xvf voice field) s = s.extractField (voiceFieldAddr voice p) p.bit p.width := by
  simp [exec, execXvf, hp]

theorem exec_xof_of_pos {voice : BitVec 5} {opr : BitVec 3} {field : BitVec 6} {p : FieldPos} (ho : opr.toNat ≤ 5)
    (hp : opFieldPos s.table field = some p) :
    exec (.xof voice opr field) s = s.extractField (opFieldAddr s.table voice opr p) p.bit p.width := by
  simp [exec, execXof, hp, Nat.not_lt.2 ho]

/-- With legal operands and an admissible table an extraction takes some field of some cell of the buffer
(42_extractor R105, R113, R114). -/
theorem exec_of_wellFormed_extraction {i : Instr} (hi : isExtraction i = true) (hw : i.wellFormed = true)
    (hT : Admissible s.table) : ∃ a bit width, a < 4104 ∧ exec i s = s.extractField a bit width := by
  cases i with
  | nop | clr | ldb | val | cks => simp [isExtraction] at hi
  | xbf addr bitoff width =>
    simp only [Instr.wellFormed, Bool.and_eq_true, decide_eq_true_eq] at hw
    have hbad : ¬ badRawField addr bitoff width = true := by
      rw [badRawField_iff]
      omega
    exact ⟨_, _, _, by omega, if_neg hbad⟩
  | xvf voice field =>
    simp only [Instr.wellFormed, decide_eq_true_eq] at hw
    have hp : voiceFieldPos s.table field = some s.table.vt[field.toNat] := dif_neg (by omega)
    exact ⟨_, _, _, voiceFieldAddr_lt hT voice hp, exec_xvf_of_pos hp⟩
  | xof voice opr field =>
    simp only [Instr.wellFormed, Bool.and_eq_true, decide_eq_true_eq] at hw
    obtain ⟨ho, hf⟩ := hw
    have hp : opFieldPos s.table field = some s.table.opt[field.toNat] := dif_neg (by omega)
    exact ⟨_, _, _, opFieldAddr_lt hT voice opr hp, exec_xof_of_pos ho hp⟩

/-- In the VALID phase of a sound state a legal extraction writes RES and no more (42_extractor R116 item 6). -/
theorem State.Inv.exec_extraction_of_ok (hs : s.Inv) {i : Instr} (hi : isExtraction i = true)
    (hw : i.wellFormed = true) (hok : s.status = .ok) : ∃ v, exec i s = .next (s.putRes v) := by
  obtain ⟨a, bit, width, ha, he⟩ := exec_of_wellFormed_extraction hi hw hs.tableAdmissible
  obtain ⟨b, hb⟩ := hs.read_of_full (hs.okVerdict hok).1 ha
  exact ⟨_, he.trans (State.extractField_eq_next.2 (Or.inr ⟨hok, ha, b, hb, rfl⟩))⟩

/-- In the other phases a legal extraction raises NOT_VALIDATED (60_exceptions R131). -/
theorem exec_extraction_of_not_ok {i : Instr} (hi : isExtraction i = true) (hw : i.wellFormed = true)
    (hT : Admissible s.table) (hok : s.status ≠ .ok) : exec i s = .next (s.raise .notValidated) := by
  obtain ⟨a, bit, width, -, he⟩ := exec_of_wellFormed_extraction hi hw hT
  exact he.trans (State.extractField_eq_next.2 (Or.inl ⟨hok, rfl⟩))

theorem isExtraction_of_writesRes {i : Instr} (hi : writesRes i = true) (hc : i ≠ .cks) : isExtraction i = true := by
  cases i with
  | nop | clr | ldb | val => simp [writesRes] at hi
  | cks => exact absurd rfl hc
  | xbf | xvf | xof => rfl

/-! ### The register port -/

/-- The numbers 5 to 7 name no register and read as 0 (10_state R14). -/
theorem portRead_of_five_le {n : RegNumber} (h : 5 ≤ n.toNat) (s : State) : s.portRead n = 0 := by
  have hn (k : RegNumber) (hk : k.toNat < 5) : n ≠ k := by
    rintro rfl
    omega
  rw [State.portRead, if_neg (hn 0 (by decide)), if_neg (hn 1 (by decide)), if_neg (hn 2 (by decide)),
    if_neg (hn 3 (by decide)), if_neg (hn 4 (by decide))]

theorem portRead_status (s : State) : s.portRead 0 = (statusCode s.status).setWidth 16 := rfl
theorem portRead_fault (s : State) : s.portRead 1 = (causeCode s.fault).setWidth 16 := rfl
theorem portRead_len (s : State) : s.portRead 2 = s.len := rfl
theorem portRead_ckexp (s : State) : s.portRead 3 = s.ckexp.setWidth 16 := rfl
theorem portRead_res (s : State) : s.portRead 4 = s.res.setWidth 16 := rfl

/-! ### The obligations -/

/-- Settles O10: reset and CLR both leave the tuple of R24, and a faulted step keeps its cause unless it is a reset. -/
theorem resetState : Obligations.ResetState := by
  unfold Obligations.ResetState
  refine ⟨fun s rest h => ⟨_, step_of_reset h, takeReset_sameBlock _⟩, ⟨Memory.read_nil, rfl, rfl, rfl, rfl, rfl⟩,
    fun s t h hf ht => ?_, fun s hf => ⟨_, rfl, emptied_sameBlock hf⟩⟩
  rcases step_keeps_fault h hf with hk | hr
  · exact absurd (hk.symm.trans ht) hf
  · exact hr

/-- Settles O46, command by command: the phase by `State.Inv.exec_phase`, the results from the cells that a sound
state has written. -/
theorem phaseTable : Obligations.PhaseTable := by
  unfold Obligations.PhaseTable
  intro s hs
  refine ⟨fun i t h => hs.exec_phase h, fun rest h => ⟨_, step_of_reset h, rfl⟩, fun hidle b => ?_,
    fun hidle b => execLdb_eq_next.2 (Or.inl ⟨hidle, rfl⟩), fun hidle => ?_, fun hidle => hs.verdictStands hidle,
    fun hl => hs.exec_cks_completes hl, fun hl => ?_, fun i hi hc hw => ?_⟩
  · refine ⟨s.appended b, execLdb_eq_next.2 (Or.inr ⟨hidle, rfl⟩), by simp, fun hlt => ?_⟩
    simp [State.appended_read, hlt]
  · obtain ⟨t, ht⟩ := hs.exec_val_completes
    obtain ⟨hst, hframe⟩ := exec_val_writes_verdict ht
    exact ⟨t, ht, by rw [hframe], hst⟩
  · exact ⟨execCks_eq_next.2 (Or.inl ⟨hl, rfl⟩), fun hok => hl (hs.okVerdict hok).1⟩
  · have hx := isExtraction_of_writesRes hi hc
    exact ⟨hs.exec_extraction_of_ok hx hw, exec_extraction_of_not_ok hx hw hs.tableAdmissible⟩

/-- Settles O11: the answer is `portRead` of the block as it stands, and zero-extension to 16 bits keeps the number. -/
theorem registerPort : Obligations.RegisterPort := by
  unfold Obligations.RegisterPort
  intro s n rest h
  refine ⟨s.portRead n, step_of_readReg h, ?_, ?_, ?_, ?_, ?_, fun hn => portRead_of_five_le hn s⟩
  · rintro rfl
    rw [portRead_status, BitVec.toNat_setWidth_of_le (by decide)]
  · rintro rfl
    rw [portRead_fault, BitVec.toNat_setWidth_of_le (by decide)]
  · rintro rfl
    exact portRead_len s
  · rintro rfl
    rw [portRead_ckexp, BitVec.toNat_setWidth_of_le (by decide)]
    exact ⟨rfl, fun hb => by omega⟩
  · rintro rfl
    rw [portRead_res, BitVec.toNat_setWidth_of_le (by decide)]

end Sys2Proof.Machine
end

section
/-! SUPPORT and PROOFS. The loaded message (20_memory R39): once a verdict stands, no command but CLR writes BUF or
LEN, and no command but CLR takes the verdict back. -/

namespace Sys2Proof.Machine

variable {s t : State}

/-! ### What the commands leave of a locked message -/

/-- LDB, the one command besides CLR that could write BUF or LEN, raises BUF_LOCKED (40_load_control R72). -/
theorem exec_ldb_of_not_idle {b : BitVec 8} (hst : s.status ≠ .idle) (h : exec (.ldb b) s = .next t) :
    t = s.raise .bufLocked := by
  rcases execLdb_eq_next.1 h with ⟨-, ht⟩ | ⟨hidle, -⟩
  · exact ht
  · exact absurd hidle hst

/-- The frame of the result commands on the message: a fault and RES stand apart from BUF and LEN. -/
theorem exec_keeps_message_of_writesRes {i : Instr} (hi : writesRes i = true) (h : exec i s = .next t) :
    t.buf = s.buf ∧ t.len = s.len := by
  rcases exec_raises_or_putsRes hi h with ⟨c, rfl⟩ | ⟨v, rfl⟩
  · exact ⟨rfl, rfl⟩
  · exact ⟨rfl, rfl⟩

/-- Once a verdict stands, CLR alone writes BUF or LEN (20_memory R39). -/
theorem exec_keeps_message_of_not_idle {i : Instr} (hclr : i ≠ .clr) (hst : s.status ≠ .idle)
    (h : exec i s = .next t) : t.buf = s.buf ∧ t.len = s.len := by
  cases i with
  | nop =>
    cases h
    exact ⟨rfl, rfl⟩
  | clr => exact absurd rfl hclr
  | ldb b =>
    rw [exec_ldb_of_not_idle hst h]
    exact ⟨rfl, rfl⟩
  | val =>
    rw [(exec_val_writes_verdict h).2]
    exact ⟨rfl, rfl⟩
  | cks | xbf | xvf | xof => exact exec_keeps_message_of_writesRes rfl h

/-- CLR alone takes a block back to IDLE: VAL puts one verdict in another's place (10_state R20). -/
theorem exec_status_ne_idle {i : Instr} (hclr : i ≠ .clr) (hst : s.status ≠ .idle) (h : exec i s = .next t) :
    t.status ≠ .idle := by
  by_cases hval : i = .val
  · subst hval
    exact (exec_val_writes_verdict h).1
  · rw [exec_keeps_status hclr hval h]
    exact hst

/-- A command word's turn on a locked message: an ignored or an illegal word leaves it too (60_exceptions R134,
R135). -/
theorem commandTurn_keeps_message_of_not_idle {w : Word} (hst : s.status ≠ .idle)
    (h : commandTurn exec w s = .next t) :
    (t.buf = s.buf ∧ t.len = s.len ∧ t.status ≠ .idle) ∨ decode w = .ok .clr := by
  rcases commandTurn_cases exec w s with ⟨-, hc⟩ | ⟨-, -, hc⟩ | ⟨-, i, hd, hc⟩
  · cases hc.symm.trans h
    exact Or.inl ⟨rfl, rfl, hst⟩
  · cases hc.symm.trans h
    exact Or.inl ⟨rfl, rfl, hst⟩
  · have he := hc.symm.trans h
    by_cases hclr : i = .clr
    · exact Or.inr (hclr ▸ hd)
    · obtain ⟨hbuf, hlen⟩ := exec_keeps_message_of_not_idle hclr hst he
      exact Or.inl ⟨hbuf, hlen, exec_status_ne_idle hclr hst he⟩

/-! ### The obligation -/

/-- Settles O47, by the host's next transaction: only a reset and the word of CLR do not keep the message. -/
theorem bufferImmutableAfterVal : Obligations.BufferImmutableAfterVal := by
  unfold Obligations.BufferImmutableAfterVal
  refine ⟨fun s t h => (exec_val_writes_verdict h).1, fun s t hst h => ?_⟩
  rcases step_cases s with ⟨-, hs⟩ | ⟨w, rest, hh, hs⟩ | ⟨n, rest, -, hs⟩ | ⟨rest, hh, -⟩
  · cases hs.symm.trans h
    exact Or.inl ⟨rfl, rfl, hst⟩
  · rcases commandTurn_keeps_message_of_not_idle (s := { s with host := rest }) hst (hs.symm.trans h) with hk | hd
    · exact Or.inl hk
    · exact Or.inr (Or.inr ⟨w, by simp [hh], hd⟩)
  · cases hs.symm.trans h
    exact Or.inl ⟨rfl, rfl, hst⟩
  · exact Or.inr (Or.inl (by simp [hh]))

end Sys2Proof.Machine
end

section
/-! SUPPORT and PROOFS. Rules of the decoder (30_encoding): what a word that decodes says of its operands (R53), which
words do not decode (R54, R55), which operands a command refuses (R53), and the pseudo-commands (R60). -/

namespace Sys2Proof

variable {w : Word} {i : Instr}

/-! ### The decoder -/

/-- A bit field of a word as a number: the quotient by the weight of its low bit, cut to its width (R53). -/
theorem toNat_wordField (w : Word) (start len : Nat) :
    (w.extractLsb' start len).toNat = w.toNat / 2 ^ start % 2 ^ len := by
  rw [BitVec.extractLsb'_toNat, Nat.shiftRight_eq_div_pow]

/-- A field at the low end of the word is a remainder of it. -/
theorem toNat_lowField (w : Word) (len : Nat) : (w.extractLsb' 0 len).toNat = w.toNat % 2 ^ len := by
  rw [toNat_wordField, pow_zero, Nat.div_one]

/-- The opcode is the word's top digit: nothing stands above it to be cut off (R50). -/
theorem opcodeOf_toNat (w : Word) : (opcodeOf w).toNat = w.toNat / 2 ^ 28 := by
  have hlt := w.isLt
  rw [opcodeOf, toNat_wordField]
  omega

/-- A word decodes when its opcode is defined and its reserved bits are 0, to the command of its row (R57). -/
theorem decode_eq_ok_iff :
    decode w = .ok i ↔
      (opcodeOf w).toNat < 8 ∧ w &&& reservedMask (opcodeOf w) = 0 ∧ commandOf w = i := by
  unfold decode
  split
  · rename_i hop
    exact ⟨nofun, fun ⟨hlt, _⟩ => absurd hop (Nat.not_le.2 hlt)⟩
  · rename_i hop
    split
    · rename_i hbits
      exact ⟨nofun, fun ⟨_, hzero, _⟩ => absurd hzero hbits⟩
    · rename_i hbits
      exact ⟨fun h => ⟨Nat.not_le.1 hop, not_not.1 hbits, Except.ok.inj h⟩, fun ⟨_, _, h⟩ => congrArg _ h⟩

/-- Every other word is illegal (R54, R55). -/
theorem decode_eq_error_iff :
    (∃ e, decode w = .error e) ↔ 8 ≤ (opcodeOf w).toNat ∨ w &&& reservedMask (opcodeOf w) ≠ 0 := by
  unfold decode
  split
  · rename_i hop
    exact ⟨fun _ => Or.inl hop, fun _ => ⟨_, rfl⟩⟩
  · rename_i hop
    split
    · rename_i hbits
      exact ⟨fun _ => Or.inr hbits, fun _ => ⟨_, rfl⟩⟩
    · rename_i hbits
      exact ⟨nofun, fun h => absurd h (not_or.2 ⟨hop, hbits⟩)⟩

/-! ### Operand fields -/

/-- The operands of the command are the numbers at their bits in the word (R53). -/
def Instr.operandsIn (w : Word) : Instr → Prop
  | .nop => True
  | .clr => True
  | .ldb imm8 => imm8.toNat = w.toNat % 2 ^ 8
  | .val => True
  | .cks => True
  | .xbf addr bitoff width =>
    addr.toNat = w.toNat % 2 ^ 13 ∧ bitoff.toNat = w.toNat / 2 ^ 16 % 2 ^ 3 ∧ width.toNat = w.toNat / 2 ^ 20 % 2 ^ 4
  | .xvf voice field => voice.toNat = w.toNat / 2 ^ 8 % 2 ^ 5 ∧ field.toNat = w.toNat % 2 ^ 6
  | .xof voice opr field =>
    voice.toNat = w.toNat / 2 ^ 8 % 2 ^ 5 ∧ opr.toNat = w.toNat / 2 ^ 16 % 2 ^ 3 ∧ field.toNat = w.toNat % 2 ^ 6

/-- Each row of the opcode map takes its operands from their bits of the word. -/
theorem commandOf_operandsIn (w : Word) : (commandOf w).operandsIn w := by
  unfold commandOf
  split_ifs
  · trivial
  · trivial
  · exact toNat_lowField w 8
  · trivial
  · trivial
  · exact ⟨toNat_lowField w 13, toNat_wordField w 16 3, toNat_wordField w 20 4⟩
  · exact ⟨toNat_wordField w 8 5, toNat_lowField w 6⟩
  · exact ⟨toNat_wordField w 8 5, toNat_wordField w 16 3, toNat_lowField w 6⟩

theorem operandsIn_of_decode (h : decode w = .ok i) : i.operandsIn w := by
  obtain ⟨-, -, rfl⟩ := decode_eq_ok_iff.1 h
  exact commandOf_operandsIn w

/-! ### Illegal words -/

/-- The bits a row's mask fixes below the opcode are the reserved bits of its opcode: the two ways the spec writes
them, R52 and R57, agree. -/
theorem mask_eq_reservedMask : ∀ r ∈ opcodeRows, r.mask &&& 0x0FFFFFFF = reservedMask (opcodeOf r.pattern) := by
  decide

/-- The two kinds of illegal word, by the opcode map's masks (R54, R55). -/
theorem decode_error_of_illegal
    (h : 8 ≤ w.toNat / 2 ^ 28
      ∨ ∃ r ∈ opcodeRows, w.toNat / 2 ^ 28 = r.pattern.toNat / 2 ^ 28 ∧ w &&& (r.mask &&& 0x0FFFFFFF) ≠ 0) :
    ∃ e, decode w = .error e := by
  rw [decode_eq_error_iff, opcodeOf_toNat]
  refine h.imp_right fun ⟨r, hr, hop, hbits⟩ => ?_
  have hsame : opcodeOf w = opcodeOf r.pattern := BitVec.eq_of_toNat_eq (by simpa only [opcodeOf_toNat] using hop)
  rwa [hsame, ← mask_eq_reservedMask r hr]

end Sys2Proof

namespace Sys2Proof.Machine

open Sys2Proof.Config

variable {s t : State}

/-- An illegal word raises ILLEGAL_CMD in an unfaulted block (60_exceptions R135). -/
theorem commandTurn_of_decode_error {run : Instr → State → Result} {w : Word} (hf : s.fault = .none)
    (hd : ∃ e, decode w = .error e) : commandTurn run w s = .next (s.raise .illegalCmd) := by
  rcases commandTurn_cases run w s with ⟨hn, -⟩ | ⟨-, -, hc⟩ | ⟨-, i, hi, -⟩
  · exact absurd hf hn
  · exact hc
  · obtain ⟨e, he⟩ := hd
    cases hi.symm.trans he

/-! ### Legal and refused operands -/

/-- XBF's check (42_extractor R105) refuses exactly the operands that R53 puts out of range. -/
theorem badRawField_iff_not_wellFormed {addr : BitVec 13} {bitoff : BitVec 3} {width : BitVec 4} :
    badRawField addr bitoff width = true ↔ (Instr.xbf addr bitoff width).wellFormed = false := by
  rw [badRawField_iff, ← Bool.not_eq_true]
  simp only [Instr.wellFormed, Bool.and_eq_true, decide_eq_true_eq]
  omega

/-- XVF's lookup (42_extractor R113) fails exactly for a field that R53 puts out of range. -/
theorem voiceFieldPos_eq_none_iff {T : FieldTable} {voice : BitVec 5} {field : BitVec 6} :
    voiceFieldPos T field = none ↔ (Instr.xvf voice field).wellFormed = false := by
  rw [voiceFieldPos_eq, Vector.getElem?_eq_none_iff, ← Bool.not_eq_true]
  simp only [Instr.wellFormed, decide_eq_true_eq]
  omega

/-- XOF's two checks (42_extractor R114) refuse exactly the operands that R53 puts out of range. -/
theorem xofRefused_iff_not_wellFormed {T : FieldTable} {voice : BitVec 5} {opr : BitVec 3} {field : BitVec 6} :
    (5 < opr.toNat ∨ opFieldPos T field = none) ↔ (Instr.xof voice opr field).wellFormed = false := by
  rw [opFieldPos_eq, Vector.getElem?_eq_none_iff, ← Bool.not_eq_true]
  simp only [Instr.wellFormed, Bool.and_eq_true, decide_eq_true_eq]
  omega

/-- A command with an operand out of its range raises BAD_OPERAND, whatever the phase (60_exceptions R133). -/
theorem exec_of_not_wellFormed {i : Instr} (hw : i.wellFormed = false) (s : State) :
    exec i s = .next (s.raise .badOperand) := by
  cases i with
  | nop | clr | ldb | val | cks => simp [Instr.wellFormed] at hw
  | xbf addr bitoff width => exact execXbf_eq_next.2 (Or.inl ⟨badRawField_iff_not_wellFormed.2 hw, rfl⟩)
  | xvf voice field => exact execXvf_eq_next.2 (Or.inl ⟨voiceFieldPos_eq_none_iff.2 hw, rfl⟩)
  | xof voice opr field => exact execXof_eq_next.2 (Or.inl ⟨xofRefused_iff_not_wellFormed.2 hw, rfl⟩)

/-- An extraction past its operand checks keeps FAULT or raises NOT_VALIDATED. -/
theorem extractField_fault {a bit width : Nat} (h : s.extractField a bit width = .next t) :
    t.fault = s.fault ∨ t.fault = .notValidated := by
  rcases State.extractField_eq_next.1 h with ⟨-, rfl⟩ | ⟨-, -, b, -, rfl⟩
  · exact Or.inr rfl
  · exact Or.inl rfl

/-- With legal operands a command keeps FAULT, or raises one of the three faults that speak of the phase or of LEN
(60_exceptions R131). -/
theorem exec_fault_of_wellFormed {i : Instr} (hw : i.wellFormed = true) (h : exec i s = .next t) :
    t.fault = s.fault ∨ t.fault = .notValidated ∨ t.fault = .bufLocked ∨ t.fault = .notLoaded := by
  cases i with
  | nop | clr =>
    cases h
    exact Or.inl rfl
  | ldb b =>
    rcases execLdb_eq_next.1 h with ⟨-, rfl⟩ | ⟨-, rfl⟩
    · simp
    · simp
  | val =>
    rw [(exec_val_writes_verdict h).2]
    exact Or.inl rfl
  | cks =>
    rcases execCks_eq_next.1 h with ⟨-, rfl⟩ | ⟨-, p, -, rfl⟩
    · simp
    · simp
  | xbf addr bitoff width =>
    rcases execXbf_eq_next.1 h with ⟨hbad, -⟩ | ⟨-, h⟩
    · simp [badRawField_iff_not_wellFormed.1 hbad] at hw
    · exact (extractField_fault h).imp_right Or.inl
  | xvf voice field =>
    rcases execXvf_eq_next.1 h with ⟨hbad, -⟩ | ⟨p, -, h⟩
    · simp [voiceFieldPos_eq_none_iff.1 hbad] at hw
    · exact (extractField_fault h).imp_right Or.inl
  | xof voice opr field =>
    rcases execXof_eq_next.1 h with ⟨hbad, -⟩ | ⟨-, p, -, h⟩
    · simp [xofRefused_iff_not_wellFormed.1 hbad] at hw
    · exact (extractField_fault h).imp_right Or.inl

/-! ### Pseudo-commands -/

/-- A field of 8 bits from bit 0 is the whole byte (42_extractor R100). -/
theorem extract_wholeByte (b : Byte) : extract b 0 8 = b := by
  rw [extract, BitVec.ushiftRight_zero]
  exact BitVec.and_allOnes

/-- The raw extraction of a whole byte, in the VALID phase (42_extractor R105). -/
theorem exec_xbf_wholeByte {addr : BitVec 13} {b : Byte} (ha : addr.toNat ≤ 4103) (hok : s.status = .ok)
    (hb : s.buf.read addr.toNat = some b) : exec (.xbf addr 0 8) s = .next (s.putRes b) := by
  have hw : (Instr.xbf addr 0 8).wellFormed = true := by simp [Instr.wellFormed, ha]
  have hbad : badRawField addr 0 8 = false := by
    rw [Bool.eq_false_iff, Ne, badRawField_iff_not_wellFormed, hw]
    decide
  refine execXbf_eq_next.2 (Or.inr ⟨hbad, State.extractField_eq_next.2 (Or.inr ⟨hok, by omega, b, hb, ?_⟩)⟩)
  exact congrArg s.putRes (extract_wholeByte b).symm

/-- The field of a name character, in 6 bits: the addition does not wrap (42_extractor R110). -/
theorem toNat_nameField (k : BitVec 4) : ((19 : BitVec 6) + k.setWidth 6).toNat = 19 + k.toNat := by
  have hlt := k.isLt
  rw [BitVec.toNat_add, BitVec.toNat_setWidth_of_le (by decide), show (19 : BitVec 6).toNat = 19 from rfl]
  omega

/-! ### The obligations -/

/-- Settles O5: the fields by `operandsIn_of_decode`; BAD_OPERAND by what each command refuses. -/
theorem operandFields : Obligations.OperandFields := by
  unfold Obligations.OperandFields
  refine ⟨fun w b h => operandsIn_of_decode h, fun w a o n h => operandsIn_of_decode h,
    fun w v f h => operandsIn_of_decode h, fun w v p f h => operandsIn_of_decode h,
    fun i s hw => exec_of_not_wellFormed hw s, fun i s t hw hs h => ?_⟩
  rcases exec_fault_of_wellFormed hw h with ht | ht | ht | ht
  · rwa [ht]
  all_goals simp [ht]

/-- Settles O6: the word is no command, so its turn raises ILLEGAL_CMD on the block as it stands. -/
theorem illegalWordsFault : Obligations.IllegalWordsFault := by
  unfold Obligations.IllegalWordsFault
  intro s w rest hh hf hill
  rw [step_of_command hh]
  exact commandTurn_of_decode_error hf (decode_error_of_illegal hill)

/-- Settles O51: the expansions by definition, RDB's effect by `exec_xbf_wholeByte`, and that neither XOD's nor XNM's
operand arithmetic wraps. -/
theorem pseudoCommands : Obligations.PseudoCommands := by
  unfold Obligations.PseudoCommands
  refine ⟨fun addr s b ha hok hb => ⟨rfl, exec_xbf_wholeByte ha hok hb⟩, fun voice slot field hs => ?_,
    fun voice k hk => ⟨_, if_pos hk, toNat_nameField k⟩, fun bs => ⟨rfl, rfl⟩⟩
  have hopr : (5 - slot).toNat = 5 - slot.toNat := BitVec.toNat_sub_of_le hs
  exact ⟨5 - slot, if_pos hs, hopr, by omega⟩

end Sys2Proof.Machine
end

section
/-! SUPPORT and PROOFS. Load and control (40_load_control): a word decodes by the row of the opcode map it selects
(30_encoding R52), so a command without operands has one word and LDB one for each byte; and what NOP, CLR and LDB do
to the block (R70, R71, R72). -/

namespace Sys2Proof

variable {w : Word} {i : Instr}

/-! ### Words, by opcode and the 28 bits below it -/

/-- The bits of a word below its opcode, as a number. -/
theorem toNat_belowOpcode (w : Word) : (w &&& 0x0FFFFFFF).toNat = w.toNat % 2 ^ 28 := by
  rw [BitVec.toNat_and]
  exact Nat.and_two_pow_sub_one_eq_mod w.toNat 28

/-- A word is its opcode and the 28 bits below it (30_encoding R50). -/
theorem word_eq_iff {v : Word} : w = v ↔ opcodeOf w = opcodeOf v ∧ w &&& 0x0FFFFFFF = v &&& 0x0FFFFFFF := by
  refine ⟨fun h => h ▸ ⟨rfl, rfl⟩, fun ⟨hop, hlow⟩ => BitVec.eq_of_toNat_eq ?_⟩
  have htop := congrArg BitVec.toNat hop
  have hrest := congrArg BitVec.toNat hlow
  rw [opcodeOf_toNat, opcodeOf_toNat] at htop
  rw [toNat_belowOpcode, toNat_belowOpcode] at hrest
  omega

/-- A row fixes the whole opcode, and every other bit that it fixes is 0 (30_encoding R52). -/
theorem opcodeRows_fix : ∀ r ∈ opcodeRows,
    opcodeOf r.mask = BitVec.allOnes 4 ∧ r.pattern &&& 0x0FFFFFFF = 0 ∧ (opcodeOf r.pattern).toNat < 8 := by
  decide

/-- A word selects a row when it has the row's opcode and 0 in the row's reserved bits (30_encoding R52). -/
theorem selectsRow_iff {r : OpcodeRow} (hr : r ∈ opcodeRows) :
    selectsRow w r = true ↔ opcodeOf w = opcodeOf r.pattern ∧ w &&& (r.mask &&& 0x0FFFFFFF) = 0 := by
  obtain ⟨hmask, hpattern, -⟩ := opcodeRows_fix r hr
  have hop : opcodeOf (w &&& r.mask) = opcodeOf w := by
    calc opcodeOf (w &&& r.mask) = opcodeOf w &&& opcodeOf r.mask := BitVec.extractLsb'_and
      _ = opcodeOf w := by rw [hmask, BitVec.and_allOnes]
  rw [selectsRow, beq_iff_eq, word_eq_iff, hop, hpattern, BitVec.and_assoc]

/-! ### Decoding by the selected row -/

theorem opcodeRow_mem (i : Instr) : opcodeRow i ∈ opcodeRows := by
  cases i <;> simp [opcodeRows, opcodeRow]

/-- A defined opcode is the opcode of its command's row (30_encoding R52). -/
theorem opcodeOf_opcodeRow_commandOf (h : (opcodeOf w).toNat < 8) :
    opcodeOf (opcodeRow (commandOf w)).pattern = opcodeOf w := by
  have hop : ∀ op : BitVec 4, op.toNat < 8 →
      op = 0 ∨ op = 1 ∨ op = 2 ∨ op = 3 ∨ op = 4 ∨ op = 5 ∨ op = 6 ∨ op = 7 := by decide
  rcases hop _ h with hk | hk | hk | hk | hk | hk | hk | hk
  all_goals simp +decide [commandOf, hk, opcodeRow]

/-- A word decodes to the command whose row it selects and whose operands it holds: R57's order of decoding comes to the
opcode map of R52. -/
theorem decode_eq_ok_iff_selectsRow :
    decode w = .ok i ↔ selectsRow w (opcodeRow i) = true ∧ commandOf w = i := by
  rw [decode_eq_ok_iff, selectsRow_iff (opcodeRow_mem i), mask_eq_reservedMask _ (opcodeRow_mem i)]
  constructor
  · rintro ⟨hlt, hbits, rfl⟩
    have hop := opcodeOf_opcodeRow_commandOf hlt
    exact ⟨⟨hop.symm, by rwa [hop]⟩, rfl⟩
  · rintro ⟨⟨hop, hbits⟩, hi⟩
    rw [← hop] at hbits
    exact ⟨hop ▸ (opcodeRows_fix _ (opcodeRow_mem i)).2.2, hbits, hi⟩

/-- A command without operands, whose row fixes every bit, has one word. -/
theorem decode_eq_ok_iff_of_fullMask (hi : (opcodeRow i).mask = 0xFFFFFFFF) :
    decode w = .ok i ↔ w = encode i := by
  have hword : (opcodeRow i).pattern = encode i ∧ commandOf (encode i) = i := by
    cases i with
    | nop | clr | val | cks => exact ⟨rfl, rfl⟩
    | ldb | xbf | xvf | xof => simp [opcodeRow] at hi
  obtain ⟨hpattern, hcmd⟩ := hword
  have hsel : selectsRow w (opcodeRow i) = true ↔ w = encode i := by
    rw [selectsRow, beq_iff_eq, hi, hpattern, show (0xFFFFFFFF : Word) = BitVec.allOnes 32 from rfl,
      BitVec.and_allOnes]
  rw [decode_eq_ok_iff_selectsRow, hsel]
  exact ⟨And.left, fun h => ⟨h, h ▸ hcmd⟩⟩

/-- Opcode 0 with another bit set is no NOP (40_load_control R70). -/
theorem reservedBits_of_opcode_zero (hop : w.toNat / 2 ^ 28 = 0) (hw : w ≠ 0) :
    w &&& ((opcodeRow .nop).mask &&& 0x0FFFFFFF) ≠ 0 := by
  intro hbits
  have hop0 : opcodeOf w = 0 := BitVec.eq_of_toNat_eq (by rw [opcodeOf_toNat, hop]; rfl)
  exact hw (word_eq_iff.2 ⟨hop0, hbits⟩)

/-! ### The words of LDB -/

/-- LDB's row leaves free exactly the bits of its operand. -/
theorem word_eq_ldbMask_or_imm8 (w : Word) : w = w &&& 0xFFFFFF00 ||| (imm8Of w).setWidth 32 := by
  have himm : (imm8Of w).setWidth 32 = w &&& 0xFF := by
    refine BitVec.eq_of_toNat_eq ?_
    rw [BitVec.toNat_setWidth_of_le (by decide), imm8Of, toNat_lowField, BitVec.toNat_and]
    exact (Nat.and_two_pow_sub_one_eq_mod w.toNat 8).symm
  rw [himm, ← BitVec.and_or_distrib_left]
  exact BitVec.and_allOnes.symm

theorem commandOf_eq_ldb_iff {b : BitVec 8} (hsel : selectsRow w (opcodeRow (.ldb b)) = true) :
    commandOf w = .ldb b ↔ imm8Of w = b := by
  obtain ⟨hrow, -⟩ := (selectsRow_iff (opcodeRow_mem _)).1 hsel
  have hop : opcodeOf w = 2 := hrow.trans (show opcodeOf 0x20000000 = 2 by decide)
  simp [commandOf, hop]

theorem imm8Of_encode_ldb (b : BitVec 8) : imm8Of (encode (.ldb b)) = b := by
  rw [imm8Of, encode, BitVec.extractLsb'_or, BitVec.extractLsb'_setWidth_of_le (by decide)]
  simp

/-- LDB has one word for each byte (40_load_control R72). -/
theorem decode_eq_ok_ldb_iff {b : BitVec 8} : decode w = .ok (.ldb b) ↔ w = encode (.ldb b) := by
  rw [decode_eq_ok_iff_selectsRow]
  constructor
  · rintro ⟨hsel, hcmd⟩
    rw [commandOf_eq_ldb_iff hsel] at hcmd
    have hfixed : w &&& 0xFFFFFF00 = 0x20000000 := beq_iff_eq.1 hsel
    rw [word_eq_ldbMask_or_imm8 w, hfixed, hcmd, encode]
  · rintro rfl
    have hsel := Laws.EncodingMatchesRow.ldb b
    exact ⟨hsel, (commandOf_eq_ldb_iff hsel).2 (imm8Of_encode_ldb b)⟩

end Sys2Proof

namespace Sys2Proof.Machine

variable {s : State}

/-! ### What CLR and LDB leave -/

/-- A buffer in which no cell reads as written is the empty one. -/
theorem Memory.eq_nil_of_unwritten {m : Memory} (h : ∀ a, m.read a = none) : m = [] := by
  cases m with
  | nil => rfl
  | cons c m => simpa [Memory.read] using h c.1

/-- In a sound LOADING block with LEN 0 the registers that CLR zeroes are 0 already, and no cell is written (10_state
R23). -/
theorem State.Inv.emptied_eq_self (hs : s.Inv) (hidle : s.status = .idle) (hlen : s.len = 0) : s.emptied = s := by
  have hbuf : s.buf = [] := Memory.eq_nil_of_unwritten fun a => by simpa [hlen] using hs.written a
  have hckexp : s.ckexp = 0 := hs.ckexpZero (by simp [hidle]) (by simp [hidle])
  have hres : s.res = 0 := hs.resZero (by simp [hlen])
  cases s
  simp_all [State.emptied]

/-- CLR alone leaves VALID and REJECTED: VAL moves the phase only out of LOADING (10_state R20). -/
theorem State.Inv.eq_clr_of_leaves_verdict (hs : s.Inv) {i : Instr} {t : State} (h : exec i s = .next t)
    (hp : phaseOf s.status ≠ .loading) (hne : phaseOf t.status ≠ phaseOf s.status) : i = .clr := by
  rcases hs.exec_phase h with hsame | ⟨hclr, -⟩ | ⟨-, hload, -⟩
  · exact absurd hsame hne
  · exact hclr
  · exact absurd hload hp

/-- An accepted LDB writes BUF and LEN alone (40_load_control R72). -/
theorem State.appended_frame (s : State) (b : Byte) :
    s.appended b = { s with buf := (s.appended b).buf, len := (s.appended b).len } := by
  unfold State.appended
  split <;> rfl

/-! ### The obligations -/

/-- Settles O13: CLR is `emptied`, which a sound LOADING block with LEN 0 already is; the phases by
`State.Inv.exec_phase`. -/
theorem clrEmptiesBlock : Obligations.ClrEmptiesBlock := by
  unfold Obligations.ClrEmptiesBlock
  refine ⟨fun w => decode_eq_ok_iff_of_fullMask rfl,
    fun s => ⟨s.emptied, rfl, rfl, Memory.read_nil, emptied_sameBlock⟩, fun s hs hp hlen => ?_,
    fun i s t hs h hp hne => hs.eq_clr_of_leaves_verdict h hp hne⟩
  exact congrArg Host.Outcome.next (hs.emptied_eq_self (phaseOf_eq_loading_iff.1 hp) hlen)

/-- Settles O14: the word by LDB's row of the opcode map, the effect by what `appended` does to each cell and to LEN. -/
theorem ldbAppendsByte : Obligations.LdbAppendsByte := by
  unfold Obligations.LdbAppendsByte
  refine fun b s => ⟨fun w => decode_eq_ok_ldb_iff, fun hst => execLdb_eq_next.2 (Or.inl ⟨hst, rfl⟩), fun hst => ?_⟩
  refine ⟨s.appended b, execLdb_eq_next.2 (Or.inr ⟨hst, rfl⟩), s.appended_frame b, ?_, s.appended_read b⟩
  rw [State.appended_len, countUp_toNat]

/-- Settles O12: NOP's row fixes every bit, so a word of opcode 0 with another bit set is an illegal word (R54). -/
theorem nopChangesNothing : Obligations.NopChangesNothing := by
  unfold Obligations.NopChangesNothing
  refine ⟨fun w => decode_eq_ok_iff_of_fullMask rfl, fun s => rfl, fun s w rest hh hf hop hw => ?_⟩
  exact illegalWordsFault s w rest hh hf
    (Or.inr ⟨opcodeRow .nop, opcodeRow_mem .nop, hop, reservedBits_of_opcode_zero hop hw⟩)

end Sys2Proof.Machine
end

section
/-! SUPPORT and PROOFS. The validator (41_validator): the checksum as a number (R81), `validate` as the checks of single
bytes in their order (R80, R85), check 7 on a message whose markers are right (R83), and the commands VAL (R84, R86) and
CKS (R88). -/

namespace Sys2Proof.Machine

open Sys2Proof.Config

variable {s t : State} {raw : List Byte}

/-! ### The checksum as a number -/

theorem maskedSum_eq_sum (p : List Byte) : maskedSum p = (p.map (fun b => b.toNat % 128)).sum := by
  induction p with
  | nil => rfl
  | cons b p ih => rw [maskedSum_cons, ih, List.map_cons, List.sum_cons]

/-- The checksum has 7 bits (41_validator R81). -/
theorem checksum7_lt (p : List Byte) : (checksum7 p).toNat < 128 := by
  rw [checksum7_toNat]
  exact Nat.mod_lt _ (by decide)

/-! ### The checks of validate -/

/-- `validate` with each check read as a question about bytes of the message, by their offsets and values
(41_validator R80). -/
theorem validate_eq_ite (raw : List Byte) :
    validate raw =
      if raw[0]? ≠ some 0xF0#8 then (.errStart, none)
      else if raw[1]? ≠ some 0x43#8 then (.errVendor, none)
      else if raw[2]? ≠ some 0x00#8 then (.errSubstatus, none)
      else if raw[3]? ≠ some 0x09#8 then (.errFormat, none)
      else if raw[4]? ≠ some 0x20#8 ∨ raw[5]? ≠ some 0x00#8 then (.errSizefield, none)
      else if raw[4103]? ≠ some 0xF7#8 then (.errEnd, none)
      else if raw[4102]? ≠ some (checksum7 (payloadOf raw)) then
        (.errChecksum, some (checksum7 (payloadOf raw)))
      else (.ok, some (checksum7 (payloadOf raw))) := by
  simp [validate, byteIs, startMark, vendorMark, substatus, formatCode, sizeMsb, sizeLsb, endMark]

/-- What a message begins with gives its single bytes. -/
theorem getElem?_of_take_eq {l : List Byte} {n k : Nat} (h : raw.take n = l) (hk : k < n) : raw[k]? = l[k]? := by
  rw [← h, List.getElem?_take_of_lt hk]

/-- Check 7 alone decides a message whose markers are right (41_validator R80): the stored byte is compared, whole, with
the computed one, which is returned either way (R83, R85). -/
theorem validate_of_markers (hhead : raw.take 6 = [0xF0#8, 0x43#8, 0x00#8, 0x09#8, 0x20#8, 0x00#8])
    (hend : raw[4103]? = some 0xF7#8) :
    validate raw = (if raw[4102]? = some (checksum7 (payloadOf raw)) then .ok else .errChecksum,
      some (checksum7 (payloadOf raw))) := by
  rw [validate_eq_ite]
  by_cases hck : raw[4102]? = some (checksum7 (payloadOf raw)) <;> simp [getElem?_of_take_eq hhead, hend, hck]

/-! ### VAL and CKS -/

/-- CKS sees LEN and the payload alone (41_validator R88): where these agree it writes the same RES. -/
theorem exec_cks_congr {s' : State} (hlen : s.len = s'.len)
    (hread : ∀ a, 6 ≤ a → a ≤ 4101 → s'.buf.read a = s.buf.read a) (h : exec .cks s = .next t)
    (hfull : s.len = 4104) : exec .cks s' = .next (s'.putRes t.res) := by
  rcases execCks_eq_next.1 h with ⟨hne, -⟩ | ⟨-, p, hp, rfl⟩
  · exact absurd hfull hne
  · have hp' : s'.buf.bytes 6 4096 = some p :=
      (Memory.bytes_congr fun k hk => hread (6 + k) (by omega) (by omega)).trans hp
    exact execCks_eq_next.2 (Or.inr ⟨hlen ▸ hfull, p, hp', rfl⟩)

/-! ### The obligations -/

/-- Settles O22: the masked sum is the sum of the remainders modulo 128. -/
theorem checksumOfMaskedSum : Obligations.ChecksumOfMaskedSum := by
  unfold Obligations.ChecksumOfMaskedSum
  exact fun p => ⟨by rw [checksum7_toNat, maskedSum_eq_sum], Nat.le_of_lt_succ (checksum7_lt p)⟩

/-- Settles O21, one clause for each branch of `validate_eq_ite`; the last two by `validate_of_markers`. -/
theorem validateFirstFailureWins : Obligations.ValidateFirstFailureWins := by
  unfold Obligations.ValidateFirstFailureWins
  intro raw _
  refine ⟨fun h0 => ?start, fun h0 h1 => ?vendor, fun h0 h1 h2 => ?substatus, fun h0 h1 h2 h3 => ?format,
    fun hhead hsize => ?sizefield, fun hhead hend => ?endMark, fun hhead hend hck => ?checksum,
    fun hhead hend hck => ?ok⟩
  case start => simp [validate_eq_ite, h0]
  case vendor => simp [validate_eq_ite, h0, h1]
  case substatus => simp [validate_eq_ite, h0, h1, h2]
  case format => simp [validate_eq_ite, h0, h1, h2, h3]
  case sizefield => simp [validate_eq_ite, getElem?_of_take_eq hhead, if_pos hsize]
  case endMark => simp [validate_eq_ite, getElem?_of_take_eq hhead, hend]
  case checksum => exact (validate_of_markers hhead hend).trans (congrArg (·, _) (if_neg hck))
  case ok => exact (validate_of_markers hhead hend).trans (congrArg (·, _) (if_pos hck))

/-- Settles O26: the stored byte is compared as a whole byte, and a computed one is below 128. -/
theorem storedChecksumComparedWhole : Obligations.StoredChecksumComparedWhole := by
  unfold Obligations.StoredChecksumComparedWhole
  intro raw c _ hhead hend hstored
  have hval : (validate raw).1 = if c = checksum7 (payloadOf raw) then .ok else .errChecksum := by
    rw [validate_of_markers hhead hend, hstored]
    simp only [Option.some.injEq]
  refine ⟨?_, fun hc => ?_⟩
  · show _ ↔ c.toNat = (checksum7 (payloadOf raw)).toNat
    rw [hval, BitVec.toNat_inj]
    simp
  · have hlt := checksum7_lt (payloadOf raw)
    rw [hval, if_neg]
    rintro rfl
    omega

/-- Settles O19: the word by VAL's row of the opcode map, the verdict by `State.applyVerdict_eq_next`, and the bytes of
a buffer whose cells are all written by the laws of runs of cells. -/
theorem valRecordsVerdict : Obligations.ValRecordsVerdict := by
  unfold Obligations.ValRecordsVerdict
  refine ⟨fun w => decode_eq_ok_iff_of_fullMask rfl,
    fun s hlen => State.applyVerdict_eq_next.2 (Or.inl ⟨hlen, rfl⟩),
    fun s raw hlen hraw => State.applyVerdict_eq_next.2 (Or.inr ⟨hlen, raw, hraw, rfl⟩),
    fun s _ hwritten => ?_, fun s t h => (exec_val_writes_verdict h).1⟩
  obtain ⟨raw, hraw⟩ := Memory.bytes_of_written (m := s.buf) (a := 0) (n := 4104) fun k hk => by
    simpa using hwritten k hk
  exact ⟨raw, hraw, Memory.bytes_length hraw, fun a ha => by rw [Memory.bytes_getElem hraw ha, Nat.zero_add]⟩

/-- Settles O28: the word by CKS's row of the opcode map, the effect by `execCks_eq_next`, and what CKS sees by
`exec_cks_congr`. -/
theorem cksRecomputes : Obligations.CksRecomputes := by
  unfold Obligations.CksRecomputes
  exact ⟨fun w => decode_eq_ok_iff_of_fullMask rfl,
    fun s hlen => execCks_eq_next.2 (Or.inl ⟨hlen, rfl⟩),
    fun s p hlen hp => ⟨execCks_eq_next.2 (Or.inr ⟨hlen, p, hp, rfl⟩), checksum7_lt p⟩,
    fun s s' t hlen hread h hfull => exec_cks_congr hlen hread h hfull⟩

end Sys2Proof.Machine
end

section
/-! SUPPORT. The words of the extractions (30_encoding R51, R53): each has one word for each choice of its operands, since
its row of the opcode map leaves free exactly the bits of its operands. With the rows of the other commands: every
command has exactly one word. -/

namespace Sys2Proof

variable {w : Word} {i : Instr}

/-! ### A bit field in its place -/

/-- A field taken out of a word and put back at its place is the word under the field's mask (R53). -/
theorem wordField_eq_and (w : Word) (start len : Nat) :
    (w.extractLsb' start len).setWidth 32 <<< start = w &&& (BitVec.allOnes len).setWidth 32 <<< start := by
  refine BitVec.eq_of_getLsbD_eq fun k hk => ?_
  by_cases hs : k < start
  · simp [hs]
  · simp [hk, hs, Nat.add_sub_cancel' (Nat.not_lt.1 hs), Bool.and_comm]

/-- The same of a field at the low end of the word. -/
theorem lowField_eq_and (w : Word) (len : Nat) :
    (w.extractLsb' 0 len).setWidth 32 = w &&& (BitVec.allOnes len).setWidth 32 := by
  simpa using wordField_eq_and w 0 len

/-- An operand put at its place is read back from there. -/
theorem extractLsb'_placed {start len : Nat} (x : BitVec len) (h : start + len ≤ 32) :
    (x.setWidth 32 <<< start).extractLsb' start len = x := by
  refine BitVec.eq_of_getLsbD_eq fun k hk => ?_
  have h1 : start + k < 32 := by omega
  simp [hk, h1]

/-- An operand that ends where another begins or before leaves the other's bits 0. -/
theorem extractLsb'_placed_below {start len place n : Nat} (x : BitVec n) (h : place + n ≤ start) :
    (x.setWidth 32 <<< place).extractLsb' start len = 0 := by
  refine BitVec.eq_of_getLsbD_eq fun k _ => ?_
  have hx : x.getLsbD (start + k - place) = false := BitVec.getLsbD_of_ge _ _ (by omega)
  simp [hx]

/-- An operand that begins where another ends or after leaves the other's bits 0. -/
theorem extractLsb'_placed_above {start len place n : Nat} (x : BitVec n) (h : start + len ≤ place) :
    (x.setWidth 32 <<< place).extractLsb' start len = 0 := by
  refine BitVec.eq_of_getLsbD_eq fun k hk => ?_
  have hlt : start + k < place := by omega
  simp [hlt]

/-- The same two facts of an operand at the low end of the word. -/
theorem extractLsb'_low {len : Nat} (x : BitVec len) (h : len ≤ 32) : (x.setWidth 32).extractLsb' 0 len = x := by
  simpa using extractLsb'_placed (start := 0) x (by omega)

theorem extractLsb'_low_below {start len n : Nat} (x : BitVec n) (h : n ≤ start) :
    (x.setWidth 32).extractLsb' start len = 0 := by
  simpa using extractLsb'_placed_below (place := 0) x (by omega)

/-! ### The rows of the extractions -/

section Xbf

variable {addr : BitVec 13} {bitoff : BitVec 3} {width : BitVec 4}

theorem commandOf_of_selects_xbf (h : selectsRow w (opcodeRow (.xbf addr bitoff width)) = true) :
    commandOf w = .xbf (addrOf w) (bitoffOf w) (widthOf w) := by
  have hop : opcodeOf w = opcodeOf 0x50000000 := ((selectsRow_iff (opcodeRow_mem _)).1 h).1
  simp +decide [commandOf, hop]

/-- XBF's row leaves free exactly the bits of `width`, `bitoff` and `addr` (42_extractor R105). -/
theorem encode_commandOf_of_selects_xbf (h : selectsRow w (opcodeRow (.xbf addr bitoff width)) = true) :
    encode (commandOf w) = w := by
  have hfixed : w &&& 0xFF08E000 = 0x50000000 := beq_iff_eq.1 h
  calc encode (commandOf w)
      = w &&& 0xFF08E000 ||| w &&& 0x00F00000 ||| w &&& 0x00070000 ||| w &&& 0x00001FFF := by
        rw [commandOf_of_selects_xbf h, hfixed, encode, addrOf, bitoffOf, widthOf, wordField_eq_and, wordField_eq_and,
          lowField_eq_and]
        rfl
    _ = w &&& BitVec.allOnes 32 := by
        simp only [← BitVec.and_or_distrib_left]
        rfl
    _ = w := BitVec.and_allOnes

theorem commandOf_encode_xbf (addr : BitVec 13) (bitoff : BitVec 3) (width : BitVec 4) :
    commandOf (encode (.xbf addr bitoff width)) = .xbf addr bitoff width := by
  rw [commandOf_of_selects_xbf (Laws.EncodingMatchesRow.xbf addr bitoff width)]
  simp [encode, addrOf, bitoffOf, widthOf, BitVec.extractLsb'_or, extractLsb'_placed, extractLsb'_placed_below,
    extractLsb'_placed_above, extractLsb'_low, extractLsb'_low_below]

end Xbf

section Xvf

variable {voice : BitVec 5} {field : BitVec 6}

theorem commandOf_of_selects_xvf (h : selectsRow w (opcodeRow (.xvf voice field)) = true) :
    commandOf w = .xvf (voiceOf w) (fieldOf w) := by
  have hop : opcodeOf w = opcodeOf 0x60000000 := ((selectsRow_iff (opcodeRow_mem _)).1 h).1
  simp +decide [commandOf, hop]

/-- XVF's row leaves free exactly the bits of `voice` and `field` (42_extractor R113). -/
theorem encode_commandOf_of_selects_xvf (h : selectsRow w (opcodeRow (.xvf voice field)) = true) :
    encode (commandOf w) = w := by
  have hfixed : w &&& 0xFFFFE0C0 = 0x60000000 := beq_iff_eq.1 h
  calc encode (commandOf w)
      = w &&& 0xFFFFE0C0 ||| w &&& 0x00001F00 ||| w &&& 0x0000003F := by
        rw [commandOf_of_selects_xvf h, hfixed, encode, voiceOf, fieldOf, wordField_eq_and, lowField_eq_and]
        rfl
    _ = w &&& BitVec.allOnes 32 := by
        simp only [← BitVec.and_or_distrib_left]
        rfl
    _ = w := BitVec.and_allOnes

theorem commandOf_encode_xvf (voice : BitVec 5) (field : BitVec 6) :
    commandOf (encode (.xvf voice field)) = .xvf voice field := by
  rw [commandOf_of_selects_xvf (Laws.EncodingMatchesRow.xvf voice field)]
  simp [encode, voiceOf, fieldOf, BitVec.extractLsb'_or, extractLsb'_placed, extractLsb'_placed_above, extractLsb'_low,
    extractLsb'_low_below]

end Xvf

section Xof

variable {voice : BitVec 5} {opr : BitVec 3} {field : BitVec 6}

theorem commandOf_of_selects_xof (h : selectsRow w (opcodeRow (.xof voice opr field)) = true) :
    commandOf w = .xof (voiceOf w) (oprOf w) (fieldOf w) := by
  have hop : opcodeOf w = opcodeOf 0x70000000 := ((selectsRow_iff (opcodeRow_mem _)).1 h).1
  simp +decide [commandOf, hop]

/-- XOF's row leaves free exactly the bits of `opr`, `voice` and `field` (42_extractor R114). -/
theorem encode_commandOf_of_selects_xof (h : selectsRow w (opcodeRow (.xof voice opr field)) = true) :
    encode (commandOf w) = w := by
  have hfixed : w &&& 0xFFF8E0C0 = 0x70000000 := beq_iff_eq.1 h
  calc encode (commandOf w)
      = w &&& 0xFFF8E0C0 ||| w &&& 0x00070000 ||| w &&& 0x00001F00 ||| w &&& 0x0000003F := by
        rw [commandOf_of_selects_xof h, hfixed, encode, voiceOf, oprOf, fieldOf, wordField_eq_and, wordField_eq_and,
          lowField_eq_and]
        rfl
    _ = w &&& BitVec.allOnes 32 := by
        simp only [← BitVec.and_or_distrib_left]
        rfl
    _ = w := BitVec.and_allOnes

theorem commandOf_encode_xof (voice : BitVec 5) (opr : BitVec 3) (field : BitVec 6) :
    commandOf (encode (.xof voice opr field)) = .xof voice opr field := by
  rw [commandOf_of_selects_xof (Laws.EncodingMatchesRow.xof voice opr field)]
  simp [encode, voiceOf, oprOf, fieldOf, BitVec.extractLsb'_or, extractLsb'_placed, extractLsb'_placed_below,
    extractLsb'_placed_above, extractLsb'_low, extractLsb'_low_below]

end Xof

/-! ### One word for each command -/

/-- A command has one word when its word holds its operands and its row leaves no other bit free. -/
theorem decode_eq_ok_iff_of_row (hsel : selectsRow (encode i) (opcodeRow i) = true)
    (hread : commandOf (encode i) = i) (hfree : selectsRow w (opcodeRow i) = true → encode (commandOf w) = w) :
    decode w = .ok i ↔ w = encode i := by
  rw [decode_eq_ok_iff_selectsRow]
  constructor
  · rintro ⟨hw, rfl⟩
    exact (hfree hw).symm
  · rintro rfl
    exact ⟨hsel, hread⟩

/-- Decoding answers a command for exactly the command's own word (30_encoding R52, R57). -/
theorem decode_eq_ok_iff_eq_encode : decode w = .ok i ↔ w = encode i := by
  cases i with
  | nop | clr | val | cks => exact decode_eq_ok_iff_of_fullMask rfl
  | ldb b => exact decode_eq_ok_ldb_iff
  | xbf addr bitoff width =>
    exact decode_eq_ok_iff_of_row (Laws.EncodingMatchesRow.xbf addr bitoff width)
      (commandOf_encode_xbf addr bitoff width) encode_commandOf_of_selects_xbf
  | xvf voice field =>
    exact decode_eq_ok_iff_of_row (Laws.EncodingMatchesRow.xvf voice field)
      (commandOf_encode_xvf voice field) encode_commandOf_of_selects_xvf
  | xof voice opr field =>
    exact decode_eq_ok_iff_of_row (Laws.EncodingMatchesRow.xof voice opr field)
      (commandOf_encode_xof voice opr field) encode_commandOf_of_selects_xof

end Sys2Proof
end

section
/-! SUPPORT and PROOFS. The extractor (42_extractor): the bits of a byte as a number (R100), the record decoders field by
field (R103, R106, R107), and that XBF, XVF and XOF write to RES the bits at the address they form (R105, R113, R114),
which for XVF and XOF is the field of the decoded voice record. -/

namespace Sys2Proof.Machine

open Sys2Proof.Config

variable {s : State} {T : FieldTable} {rec : List Byte} {p : FieldPos}

/-! ### The bit-field primitive -/

/-- Shifting is division and masking is remainder: the named bits as a number (R100). -/
theorem extract_eq_ofNat (b : Byte) (o w : Nat) : extract b o w = BitVec.ofNat 8 (b.toNat / 2 ^ o % 2 ^ w) := by
  have hshift : b >>> o = BitVec.ofNat 8 (b.toNat / 2 ^ o) :=
    BitVec.eq_of_toNat_eq (by
      rw [BitVec.toNat_ushiftRight, Nat.shiftRight_eq_div_pow, BitVec.toNat_ofNat,
        Nat.mod_eq_of_lt ((Nat.div_le_self _ _).trans_lt b.isLt)])
  rw [extract, hshift, ← BitVec.ofNat_and, Nat.and_two_pow_sub_one_eq_mod]

/-- The number is at most the byte, so 8 bits hold it. -/
theorem extract_toNat (b : Byte) (o w : Nat) : (extract b o w).toNat = b.toNat / 2 ^ o % 2 ^ w := by
  have hle : b.toNat / 2 ^ o % 2 ^ w ≤ b.toNat := (Nat.mod_le _ _).trans (Nat.div_le_self _ _)
  rw [extract_eq_ofNat, BitVec.toNat_ofNat, Nat.mod_eq_of_lt (hle.trans_lt b.isLt)]

/-- Bit `k` of the result is bit `o + k` of the byte, below the width (R35). -/
theorem extract_getLsbD (b : Byte) (o w k : Nat) :
    (extract b o w).getLsbD k = (decide (k < w) && b.getLsbD (o + k)) := by
  rw [← BitVec.testBit_toNat, extract_toNat, Nat.testBit_mod_two_pow, Nat.testBit_div_two_pow, BitVec.testBit_toNat,
    Nat.add_comm k o]

/-! ### The extraction from a cell -/

theorem extractField_of_not_ok (hok : s.status ≠ .ok) (a bit width : Nat) :
    s.extractField a bit width = .next { s with fault := .notValidated } :=
  State.extractField_eq_next.2 (Or.inl ⟨hok, rfl⟩)

/-- In the VALID phase an extraction writes to RES the named bits of its cell. -/
theorem extractField_of_read {a bit width : Nat} {b : Byte} (hok : s.status = .ok) (ha : a < 4104)
    (hb : s.buf.read a = some b) :
    s.extractField a bit width = .next { s with res := BitVec.ofNat 8 (b.toNat / 2 ^ bit % 2 ^ width) } := by
  rw [← extract_eq_ofNat]
  exact State.extractField_eq_next.2 (Or.inr ⟨hok, ha, b, hb, rfl⟩)

/-! ### Fields of a record -/

/-- A field that lies in the record is the named bits of its byte. -/
theorem fieldAt_of_lt (hp : p.byte < rec.length) :
    ∃ b : Byte, rec[p.byte]? = some b ∧ fieldAt rec p = some (BitVec.ofNat 8 (b.toNat / 2 ^ p.bit % 2 ^ p.width)) := by
  refine ⟨rec[p.byte], List.getElem?_eq_getElem hp, ?_⟩
  rw [← extract_eq_ofNat]
  simp [fieldAt, hp]

/-- A value decoded at a position that lies in the record is the named bits of its byte. -/
theorem value_of_field {vs : List Byte} {f : Nat} (hp : p.byte < rec.length)
    (h : ∃ v, vs[f]? = some v ∧ fieldAt rec p = some v) :
    ∃ b : Byte, rec[p.byte]? = some b ∧ vs[f]? = some (BitVec.ofNat 8 (b.toNat / 2 ^ p.bit % 2 ^ p.width)) := by
  obtain ⟨v, hv, hfield⟩ := h
  obtain ⟨b, hb, hbits⟩ := fieldAt_of_lt hp
  exact ⟨b, hb, hv.trans (hfield.symm.trans hbits)⟩

theorem mem_toList_of_getElem? {n : Nat} {ps : Vector FieldPos n} {f : Nat} (h : ps[f]? = some p) : p ∈ ps.toList :=
  Vector.mem_toList_iff.2 (Vector.mem_of_getElem? h)

/-- Values decoded at the positions of a vector: one for each position, the field there. -/
theorem fieldsAt_vector_eq_some {n : Nat} {ps : Vector FieldPos n} {vs : List Byte}
    (h : fieldsAt rec ps.toList = some vs) :
    vs.length = n ∧
      ∀ (f : Nat) (p : FieldPos), ps[f]? = some p → ∃ v, vs[f]? = some v ∧ fieldAt rec p = some v := by
  obtain ⟨hlen, hget⟩ := fieldsAt_eq_some h
  rw [Vector.length_toList] at hlen
  refine ⟨hlen, fun f p hp => ?_⟩
  obtain ⟨hf, -⟩ := Vector.getElem?_eq_some_iff.1 hp
  have hv : vs[f]? = some vs[f] := List.getElem?_eq_getElem (hlen ▸ hf)
  exact ⟨vs[f], hv, (hget f p (by rwa [Vector.getElem?_toList])).symm.trans hv⟩

/-- A field of the operator record at a disk slot is the field of the voice record as many bytes on. -/
theorem fieldAt_operatorSlot (hp : p.byte < T.opSize) (d : Nat) :
    fieldAt (operatorSlot T rec d) p = fieldAt rec { p with byte := T.opBase + T.opSize * d + p.byte } := by
  have hget : (operatorSlot T rec d)[p.byte]? = rec[T.opBase + T.opSize * d + p.byte]? := by
    rw [operatorSlot, List.getElem?_take_of_lt hp, List.getElem?_drop]
  simp only [fieldAt, hget]

/-- A field of a record that stands in the buffer, as an extraction reads it from there. -/
theorem extractField_of_fieldAt {a n : Nat} {v : Byte} (hok : s.status = .ok) (ha : a + n ≤ 4104)
    (hrec : s.buf.bytes a n = some rec) (hv : fieldAt rec p = some v) :
    s.extractField (a + p.byte) p.bit p.width = .next { s with res := v } := by
  have hlen := Memory.bytes_length hrec
  unfold fieldAt at hv
  split at hv
  · rename_i b hb
    obtain ⟨hlt, -⟩ := List.getElem?_eq_some_iff.1 hb
    cases hv
    refine State.extractField_eq_next.2 (Or.inr ⟨hok, by omega, b, ?_, rfl⟩)
    rw [← Memory.bytes_getElem hrec (by omega), hb]
  · simp at hv

/-! ### The record decoders -/

/-- An operator record of the table's size is decoded (R106). -/
theorem decodeOperator_isSome (hT : Admissible T) (hlen : rec.length = T.opSize) :
    ∃ o, decodeOperator T rec = some o :=
  fieldsAt_isSome fun _ hp => hlen ▸ (admissible_opt hT hp).2

/-- Operators that are each decoded are decoded together. -/
theorem decodeOperators_isSome (h : ∀ d, d < 6 → ∃ o, decodeOperator T (operatorSlot T rec d) = some o) (i n : Nat) :
    ∃ os, decodeOperators T rec i n = some os := by
  induction n generalizing i with
  | zero => exact ⟨[], rfl⟩
  | succ n ih =>
    obtain ⟨o, ho⟩ := h (diskSlot i) (by simp only [diskSlot]; omega)
    obtain ⟨os, hos⟩ := ih (i + 1)
    exact ⟨o :: os, by simp only [decodeOperators, ho, hos]⟩

/-- The operator records of an admissible table lie in the voice record, whole. -/
theorem operatorSlot_length (hT : Admissible T) (hlen : rec.length = 128) {d : Nat} (hd : d < 6) :
    (operatorSlot T rec d).length = T.opSize := by
  have hblock := admissible_block hT
  have hslot : T.opSize * d ≤ T.opSize * 5 := Nat.mul_le_mul_left _ (by omega)
  rw [operatorSlot, List.length_take, List.length_drop]
  omega

theorem decodeVoice_eq_some {V : Voice} :
    decodeVoice T rec = some V ↔
      decodeOperators T rec 0 6 = some V.op ∧ fieldsAt rec T.vt.toList = some V.g := by
  obtain ⟨op, g⟩ := V
  unfold decodeVoice
  cases decodeOperators T rec 0 6 <;> cases fieldsAt rec T.vt.toList <;> simp

/-- A voice record of 128 bytes is decoded (R107). -/
theorem decodeVoice_isSome (hT : Admissible T) (hlen : rec.length = 128) : ∃ V, decodeVoice T rec = some V := by
  obtain ⟨op, hop⟩ := decodeOperators_isSome
    (fun d hd => decodeOperator_isSome hT (operatorSlot_length (rec := rec) hT hlen hd)) 0 6
  obtain ⟨g, hg⟩ := fieldsAt_isSome (rec := rec) (ps := T.vt.toList) fun _ hp => by
    have := (admissible_vt hT hp).2
    omega
  exact ⟨⟨op, g⟩, decodeVoice_eq_some.2 ⟨hop, hg⟩⟩

/-- The voice-level values of a decoded voice, by field id (R107). -/
theorem decodeVoice_g {V : Voice} (h : decodeVoice T rec = some V) :
    V.g.length = 29 ∧
      ∀ (f : Nat) (p : FieldPos), T.vt[f]? = some p → ∃ v, V.g[f]? = some v ∧ fieldAt rec p = some v :=
  fieldsAt_vector_eq_some (decodeVoice_eq_some.1 h).2

/-- The operators of a decoded voice, by logical index, each from its disk slot (R103). -/
theorem decodeVoice_op {V : Voice} (h : decodeVoice T rec = some V) :
    V.op.length = 6 ∧ ∀ i, i < 6 → V.op[i]? = decodeOperator T (operatorSlot T rec (diskSlot i)) := by
  simpa only [Nat.zero_add] using decodeOperators_eq_some (decodeVoice_eq_some.1 h).1

/-- A field of an operator of a decoded voice is the field of the voice record at the operator's disk slot. -/
theorem decodeVoice_operatorField {V : Voice} (hT : Admissible T) (h : decodeVoice T rec = some V) {i f : Nat}
    (hi : i < 6) (hp : T.opt[f]? = some p) :
    ∃ o v, V.op[i]? = some o ∧ o[f]? = some v
      ∧ fieldAt rec { p with byte := T.opBase + T.opSize * diskSlot i + p.byte } = some v := by
  obtain ⟨hlen, hop⟩ := decodeVoice_op h
  have hi' : V.op[i]? = some V.op[i] := List.getElem?_eq_getElem (hlen ▸ hi)
  have hbyte : p.byte < T.opSize := (admissible_opt hT (mem_toList_of_getElem? hp)).2
  obtain ⟨v, hv, hfield⟩ := (fieldsAt_vector_eq_some ((hop i hi).symm.trans hi')).2 f p hp
  exact ⟨V.op[i], v, hi', hv, (fieldAt_operatorSlot hbyte _).symm.trans hfield⟩

/-! ### The named extractions -/

/-- XVF with a field of the table, once STATUS is OK: the bits of the byte at its address (R113). -/
theorem exec_xvf_of_read {voice : BitVec 5} {field : BitVec 6} {b : Byte} (hT : Admissible s.table)
    (hp : s.table.vt[field.toNat]? = some p) (hok : s.status = .ok)
    (hb : s.buf.read (6 + 128 * voice.toNat + p.byte) = some b) :
    exec (.xvf voice field) s = .next { s with res := BitVec.ofNat 8 (b.toNat / 2 ^ p.bit % 2 ^ p.width) } := by
  rw [← voiceFieldPos_eq] at hp
  rw [exec_xvf_of_pos hp]
  exact extractField_of_read hok (voiceFieldAddr_lt hT voice hp) hb

/-- A voice's record lies in the buffer (20_memory R32). -/
theorem voiceRecord_le (voice : BitVec 5) : 6 + 128 * voice.toNat + 128 ≤ 4104 := by
  have := voice.isLt
  omega

/-! ### The obligations -/

/-- Settles O30: the number, its bits, and a whole byte, by the lemmas on `extract`. -/
theorem extractTakesBits : Obligations.ExtractTakesBits := by
  unfold Obligations.ExtractTakesBits
  refine ⟨fun b o w _ _ => ⟨extract_toNat b o w, ?_, extract_getLsbD b o w⟩, extract_wholeByte⟩
  rw [extract_toNat]
  exact Nat.mod_lt _ (Nat.two_pow_pos w)

/-- Settles O31: the word by `decode_eq_ok_iff_eq_encode`, then XBF's check of its operands and the extraction. -/
theorem xbfExtracts : Obligations.XbfExtracts := by
  unfold Obligations.XbfExtracts
  intro addr bitoff width s
  refine ⟨fun w => decode_eq_ok_iff_eq_encode,
    fun hbad => execXbf_eq_next.2 (Or.inl ⟨badRawField_iff.2 hbad, rfl⟩), fun haddr hwidth hbyte => ?_⟩
  have hlegal : ¬ badRawField addr bitoff width = true := by
    rw [badRawField_iff]
    omega
  have hexec : exec (.xbf addr bitoff width) s = s.extractField addr.toNat bitoff.toNat width.toNat := if_neg hlegal
  rw [hexec]
  exact ⟨fun hok => extractField_of_not_ok hok _ _ _, fun hok b hb => extractField_of_read hok (by omega) hb⟩

/-- Settles O32: a field of the table is an extraction from its address; the decoded record holds the same field of the
bytes that stand there. -/
theorem xvfExtracts : Obligations.XvfExtracts := by
  unfold Obligations.XvfExtracts
  refine fun voice field => ⟨fun w => decode_eq_ok_iff_eq_encode, fun s hT => ⟨fun hf => ?_, fun p hp => ?_⟩⟩
  · exact exec_of_not_wellFormed (by simpa [Instr.wellFormed] using hf) s
  · have hexec := exec_xvf_of_pos (s := s) (voice := voice) ((voiceFieldPos_eq _ _).trans hp)
    refine ⟨fun hok => hexec.trans (extractField_of_not_ok hok _ _ _), fun hok b hb => exec_xvf_of_read hT hp hok hb,
      fun hok r V hr hV => ?_⟩
    obtain ⟨v, hv, hfield⟩ := (decodeVoice_g hV).2 _ p hp
    exact ⟨v, hv, hexec.trans (extractField_of_fieldAt hok (voiceRecord_le voice) hr hfield)⟩

/-- Settles O33, as O32: the field of an operator is the field of the voice record at the operator's disk slot. -/
theorem xofExtracts : Obligations.XofExtracts := by
  unfold Obligations.XofExtracts
  refine fun voice opr field => ⟨fun w => decode_eq_ok_iff_eq_encode,
    fun s hT => ⟨fun hbad => ?_, fun p ho hp => ?_⟩⟩
  · exact exec_of_not_wellFormed (by simpa [Instr.wellFormed, imp_iff_not_or] using hbad) s
  · have hpos := (opFieldPos_eq _ _).trans hp
    have hexec := exec_xof_of_pos (s := s) (voice := voice) ho hpos
    refine ⟨fun hok => hexec.trans (extractField_of_not_ok hok _ _ _),
      fun hok b hb => hexec.trans (extractField_of_read hok (opFieldAddr_lt hT voice opr hpos) hb),
      fun hok r V hr hV => ?_⟩
    obtain ⟨o, v, hop, hv, hfield⟩ := decodeVoice_operatorField hT hV (Nat.lt_succ_of_le ho) hp
    have haddr : opFieldAddr s.table voice opr p
        = 6 + 128 * voice.toNat + (s.table.opBase + s.table.opSize * diskSlot opr.toNat + p.byte) := by
      simp only [opFieldAddr, voiceBase, payloadOff, voiceSize, Nat.add_assoc]
    rw [haddr] at hexec
    exact ⟨o, v, hop, hv, hexec.trans (extractField_of_fieldAt hok (voiceRecord_le voice) hr hfield)⟩

/-- Settles O37: the decoders answer on records of their size, and what they answer is each field at its place. -/
theorem decodeVoiceFields : Obligations.DecodeVoiceFields := by
  unfold Obligations.DecodeVoiceFields
  refine ⟨fun raw v i => ?_, fun T r hT => ⟨fun hlen => ?_, fun hlen => ?_⟩⟩
  · rw [voiceRecord, List.getElem?_take, List.getElem?_drop, voiceBase, payloadOff, voiceSize]
  · obtain ⟨o, ho⟩ := decodeOperator_isSome hT hlen
    obtain ⟨hcount, hfields⟩ := fieldsAt_vector_eq_some ho
    refine ⟨o, ho, hcount, fun f p hp => ?_⟩
    have hin := (admissible_opt hT (mem_toList_of_getElem? hp)).2
    exact value_of_field (hlen ▸ hin) (hfields f p hp)
  · obtain ⟨V, hV⟩ := decodeVoice_isSome hT hlen
    obtain ⟨hcount, hfields⟩ := decodeVoice_g hV
    obtain ⟨hops, hop⟩ := decodeVoice_op hV
    refine ⟨V, hV, hops, hcount, hop, fun f p hp => ?_⟩
    have hin := (admissible_vt hT (mem_toList_of_getElem? hp)).2
    exact value_of_field (by omega) (hfields f p hp)

/-- Settles O38: a name field is the whole byte at its offset, by `admissible_name`. -/
theorem nameBytesPassThrough : Obligations.NameBytesPassThrough := by
  unfold Obligations.NameBytesPassThrough
  intro voice k s b hk hT hok hb
  have hfield : (BitVec.ofNat 6 (19 + k)).toNat = 19 + k := by
    rw [BitVec.toNat_ofNat]
    omega
  have hp : s.table.vt[(BitVec.ofNat 6 (19 + k)).toNat]? = some ⟨118 + k, 0, 8⟩ := by
    rw [hfield, Vector.getElem?_eq_getElem (by omega)]
    exact congrArg some (admissible_name hT ⟨k, hk⟩)
  rw [exec_xvf_of_read hT hp hok (by rwa [← Nat.add_assoc]), ← extract_eq_ofNat, extract_wholeByte]

end Sys2Proof.Machine
end

section
/-! SUPPORT and PROOFS. Exceptions (60_exceptions): a faulted block ignores every command word (R135), a fault is
precise (R134), nothing but reset clears it (R136), and the cause it leaves in FAULT (R131, R133). -/

namespace Sys2Proof.Machine

variable {s t : State}

/-! ### The faulted block -/

theorem commandTurn_of_faulted (run : Instr → State → Result) (w : Word) (hf : s.fault ≠ .none) :
    commandTurn run w s = .next s := by
  rcases commandTurn_cases run w s with ⟨-, hc⟩ | ⟨hn, -⟩ | ⟨hn, -⟩
  · exact hc
  · exact absurd hn hf
  · exact absurd hn hf

theorem step_of_command_of_faulted {w : Word} {rest : List HostEvent} (hf : s.fault ≠ .none)
    (hh : s.host = .command w :: rest) : step s = .next { s with host := rest } := by
  rw [step_of_command hh]
  exact commandTurn_of_faulted exec w hf

/-- A faulted block takes any number of command words off the host's list and does nothing with them
(60_exceptions R135). -/
theorem core_run_of_faulted (ws : List Word) {rest : List HostEvent} (hf : s.fault ≠ .none)
    (hh : s.host = ws.map HostEvent.command ++ rest) : core.run ws.length s = .next { s with host := rest } := by
  induction ws generalizing s with
  | nil =>
    obtain rfl : s.host = rest := hh
    rfl
  | cons w ws ih =>
    rw [List.length_cons, core_run_succ (step_of_command_of_faulted hf hh)]
    exact ih hf rfl

/-- Raising a fault shows on the register port at FAULT alone (60_exceptions R134). -/
theorem portRead_raise {n : RegNumber} (hn : n ≠ 1) (c : Cause) : (s.raise c).portRead n = s.portRead n := by
  simp only [State.portRead, if_neg hn, State.raise_status, State.raise_len, State.raise_ckexp, State.raise_res]

/-! ### A fault is precise -/

/-- A command that touches FAULT raises it and does nothing else (60_exceptions R134). -/
theorem exec_raises_or_keeps_fault {i : Instr} (h : exec i s = .next t) :
    (∃ c, t = s.raise c) ∨ t.fault = s.fault := by
  cases i with
  | nop | clr =>
    cases h
    exact Or.inr rfl
  | ldb b =>
    rcases execLdb_eq_next.1 h with ⟨-, rfl⟩ | ⟨-, rfl⟩
    · exact Or.inl ⟨_, rfl⟩
    · exact Or.inr (State.appended_fault s b)
  | val =>
    rw [(exec_val_writes_verdict h).2]
    exact Or.inr rfl
  | cks | xbf | xvf | xof =>
    rcases exec_raises_or_putsRes rfl h with hc | ⟨v, rfl⟩
    · exact Or.inl hc
    · exact Or.inr rfl

/-- The same of a command word's turn: an illegal word raises ILLEGAL_CMD, an ignored one keeps FAULT. -/
theorem commandTurn_raises_or_keeps_fault {w : Word} (h : commandTurn exec w s = .next t) :
    (∃ c, t = s.raise c) ∨ t.fault = s.fault := by
  rcases commandTurn_cases exec w s with ⟨-, hc⟩ | ⟨-, -, hc⟩ | ⟨-, i, -, hc⟩
  · cases hc.symm.trans h
    exact Or.inr rfl
  · cases hc.symm.trans h
    exact Or.inl ⟨_, rfl⟩
  · exact exec_raises_or_keeps_fault (hc.symm.trans h)

/-! ### The cause of a fault -/

theorem statusCode_eq_zero_iff {st : Status} : (statusCode st).toNat = 0 ↔ st = .idle := by
  cases st <;> decide

theorem statusCode_eq_one_iff {st : Status} : (statusCode st).toNat = 1 ↔ st = .ok := by
  cases st <;> decide

/-- With legal operands an extraction takes some field of some cell, under any field table. -/
theorem exec_eq_extractField {i : Instr} (hi : isExtraction i = true) (hw : i.wellFormed = true) (s : State) :
    ∃ a bit width, exec i s = s.extractField a bit width := by
  cases i with
  | nop | clr | ldb | val | cks => simp [isExtraction] at hi
  | xbf addr bitoff width =>
    have hbad : ¬ badRawField addr bitoff width = true := by simp [badRawField_iff_not_wellFormed, hw]
    exact ⟨_, _, _, if_neg hbad⟩
  | xvf voice field =>
    have hpos : voiceFieldPos s.table field ≠ none := by simp [voiceFieldPos_eq_none_iff (voice := voice), hw]
    obtain ⟨p, hp⟩ := Option.ne_none_iff_exists'.1 hpos
    exact ⟨_, _, _, exec_xvf_of_pos hp⟩
  | xof voice opr field =>
    have hok : ¬ (5 < opr.toNat ∨ opFieldPos s.table field = none) := by
      simp [xofRefused_iff_not_wellFormed (voice := voice), hw]
    obtain ⟨hopr, hpos⟩ := not_or.1 hok
    obtain ⟨p, hp⟩ := Option.ne_none_iff_exists'.1 hpos
    exact ⟨_, _, _, exec_xof_of_pos (Nat.not_lt.1 hopr) hp⟩

/-- NOT_VALIDATED is the one fault of an extraction with legal operands: it needs STATUS OK (60_exceptions R131). -/
theorem exec_extraction_fault {i : Instr} (hi : isExtraction i = true) (hw : i.wellFormed = true)
    (h : exec i s = .next t) : t.fault = if s.status ≠ .ok then .notValidated else s.fault := by
  obtain ⟨a, bit, width, he⟩ := exec_eq_extractField hi hw s
  rcases State.extractField_eq_next.1 (he.symm.trans h) with ⟨hst, rfl⟩ | ⟨hst, -, b, -, rfl⟩
  · rw [if_pos hst, State.raise_fault]
  · rw [if_neg (not_not.2 hst), State.putRes_fault]

/-- LDB needs the LOADING phase (60_exceptions R131). -/
theorem exec_ldb_fault {b : BitVec 8} (h : exec (.ldb b) s = .next t) :
    t.fault = if s.status ≠ .idle then .bufLocked else s.fault := by
  rcases execLdb_eq_next.1 h with ⟨hst, rfl⟩ | ⟨hst, rfl⟩
  · rw [if_pos hst, State.raise_fault]
  · rw [if_neg (not_not.2 hst), State.appended_fault]

/-- CKS needs a whole message (60_exceptions R131). -/
theorem exec_cks_fault (h : exec .cks s = .next t) : t.fault = if s.len ≠ 4104 then .notLoaded else s.fault := by
  rcases execCks_eq_next.1 h with ⟨hl, rfl⟩ | ⟨hl, p, -, rfl⟩
  · rw [if_pos hl, State.raise_fault]
  · rw [if_neg (not_not.2 hl), State.putRes_fault]

/-- Past decoding and operands FAULT gets the code of the row of R131 whose condition on the phase or on LEN applies, and
none for the commands that have no such row. -/
theorem exec_causeCode_of_wellFormed {w : Word} {i : Instr} (hd : decode w = .ok i) (hw : i.wellFormed = true)
    (hf : s.fault = .none) (h : exec i s = .next t) : (causeCode t.fault).toNat = expectedCauseCode s w := by
  cases i with
  | nop | clr =>
    cases h
    simp [expectedCauseCode, hd, hw, hf, causeCode]
  | ldb b =>
    rw [exec_ldb_fault h]
    by_cases hst : s.status = .idle
    · simp [expectedCauseCode, hd, hw, hf, causeCode, statusCode_eq_zero_iff, hst]
    · simp [expectedCauseCode, hd, hw, causeCode, statusCode_eq_zero_iff, hst]
  | val =>
    rw [(exec_val_writes_verdict h).2]
    simp [expectedCauseCode, hd, hw, hf, causeCode]
  | cks =>
    rw [exec_cks_fault h]
    by_cases hl : s.len = 4104
    · simp [expectedCauseCode, hd, hw, hf, causeCode, hl]
    · have hlen : s.len.toNat ≠ 4104 := fun hn => hl (BitVec.eq_of_toNat_eq hn)
      rw [if_pos hl]
      simp [expectedCauseCode, hd, hw, causeCode, hlen]
  | xbf | xvf | xof =>
    rw [exec_extraction_fault rfl hw h]
    by_cases hst : s.status = .ok
    · simp [expectedCauseCode, hd, hw, hf, causeCode, statusCode_eq_one_iff, hst]
    · simp [expectedCauseCode, hd, hw, causeCode, statusCode_eq_one_iff, hst]

/-- The code in FAULT after a command word's turn, in the order of R133: decoding, then operands, then the phase or
LEN. -/
theorem commandTurn_causeCode {w : Word} (hf : s.fault = .none) (h : commandTurn exec w s = .next t) :
    (causeCode t.fault).toNat = expectedCauseCode s w := by
  rcases commandTurn_cases exec w s with ⟨hn, -⟩ | ⟨-, ⟨e, hd⟩, hc⟩ | ⟨-, i, hd, hc⟩
  · exact absurd hf hn
  · cases hc.symm.trans h
    simp [expectedCauseCode, hd, causeCode]
  · have he := hc.symm.trans h
    cases hw : i.wellFormed with
    | false =>
      cases (exec_of_not_wellFormed hw s).symm.trans he
      simp [expectedCauseCode, hd, hw, causeCode]
    | true => exact exec_causeCode_of_wellFormed hd hw hf he

/-! ### The obligations -/

/-- Settles O8: one word by `step_of_command_of_faulted`, any number by induction in `core_run_of_faulted`; a register
read is answered in any state, and from FAULT apart it does not see that a fault was raised. -/
theorem faultedBlockIgnoresCommands : Obligations.FaultedBlockIgnoresCommands := by
  unfold Obligations.FaultedBlockIgnoresCommands
  exact ⟨fun s w rest hf hh => step_of_command_of_faulted hf hh, fun ws s rest hf hh => core_run_of_faulted ws hf hh,
    fun s n rest hh => step_of_readReg hh, fun s c n hn => portRead_raise hn c⟩

/-- Settles O9: `step_keeps_fault` over every transaction of the host, and the effect of CLR on STATUS. -/
theorem onlyResetClearsFault : Obligations.OnlyResetClearsFault := by
  unfold Obligations.OnlyResetClearsFault
  exact ⟨fun s t h hf => step_keeps_fault h hf, fun s => ⟨s.emptied, rfl, s.emptied_status⟩⟩

/-- Settles O44: the turn keeps FAULT or raises a fault and does nothing else; from then on the block is faulted. -/
theorem faultIsPrecise : Obligations.FaultIsPrecise := by
  unfold Obligations.FaultIsPrecise
  intro s t w rest hh hf h ht
  rw [step_of_command hh] at h
  rcases commandTurn_raises_or_keeps_fault h with ⟨c, rfl⟩ | hk
  · exact ⟨rfl, fun ws later hrest => core_run_of_faulted ws ht hrest⟩
  · exact absurd (hk.trans hf) ht

/-- Settles O45: the word's turn by `commandTurn_causeCode`; neither STATUS nor LEN changes when the host's list moves
on. -/
theorem faultCauses : Obligations.FaultCauses := by
  unfold Obligations.FaultCauses
  intro s t w rest hh hf h
  rw [step_of_command hh] at h
  exact commandTurn_causeCode (s := { s with host := rest }) hf h

end Sys2Proof.Machine
end

section
/-! SUPPORT and PROOFS. Decoding and encoding (30_encoding): each command has exactly one word (R52, R57), and a word
that decodes selects the row of its command in the opcode map and no other. -/

namespace Sys2Proof

variable {w : Word}

/-- Two rows of the opcode map with one opcode are one row (30_encoding R52). -/
theorem opcodeRow_eq_of_opcode : ∀ r ∈ opcodeRows, ∀ r' ∈ opcodeRows,
    opcodeOf r.pattern = opcodeOf r'.pattern → r = r' := by
  decide

/-- A word selects at most one row (30_encoding R52). -/
theorem selectsRow_unique {r r' : OpcodeRow} (hr : r ∈ opcodeRows) (hr' : r' ∈ opcodeRows)
    (h : selectsRow w r = true) (h' : selectsRow w r' = true) : r = r' :=
  opcodeRow_eq_of_opcode r hr r' hr' (((selectsRow_iff hr).1 h).1.symm.trans ((selectsRow_iff hr').1 h').1)

/-- A word that selects a row decodes: the row's opcode is defined and its mask fixes the reserved bits to 0. -/
theorem decode_of_selectsRow {r : OpcodeRow} (hr : r ∈ opcodeRows) (h : selectsRow w r = true) :
    decode w = .ok (commandOf w) := by
  obtain ⟨hop, hbits⟩ := (selectsRow_iff hr).1 h
  refine decode_eq_ok_iff.2 ⟨hop ▸ (opcodeRows_fix r hr).2.2, ?_, rfl⟩
  rwa [hop, ← mask_eq_reservedMask r hr]

/-! ### The obligations -/

/-- Settles O2: the command's own word is the one word that decodes to it. -/
theorem decodeOfEncode : Obligations.DecodeOfEncode := by
  unfold Obligations.DecodeOfEncode
  exact fun i => decode_eq_ok_iff_eq_encode.2 rfl

/-- Settles O3, the other direction of the same equivalence. -/
theorem encodeOfDecode : Obligations.EncodeOfDecode := by
  unfold Obligations.EncodeOfDecode
  exact fun w i h => (decode_eq_ok_iff_eq_encode.1 h).symm

/-- Settles O4: a decoded word selects its command's row by `decode_eq_ok_iff_selectsRow`, and a word selects one row
at most. -/
theorem decodeAgreesWithOpcodeMap : Obligations.DecodeAgreesWithOpcodeMap := by
  unfold Obligations.DecodeAgreesWithOpcodeMap
  refine fun w => ⟨fun i hd => ?_, fun r hr hsel => ?_⟩
  · have hsel := (decode_eq_ok_iff_selectsRow.1 hd).1
    exact ⟨hsel, fun r hr hr' => selectsRow_unique hr (opcodeRow_mem i) hr' hsel⟩
  · have hd := decode_of_selectsRow hr hsel
    exact ⟨_, hd, selectsRow_unique (opcodeRow_mem _) hr (decode_eq_ok_iff_selectsRow.1 hd).1 hsel⟩

/-- Settles O1: the words decode as `decode` computes. -/
theorem sampleWordsDecode : Obligations.SampleWordsDecode := by
  unfold Obligations.SampleWordsDecode
  decide

end Sys2Proof
end

section
/-! SUPPORT. The outcome of validate by the markers (41_validator R80, R85): only a message with the right markers
reaches check 7, and only check 7 gives a checksum. -/

namespace Sys2Proof.Machine

open Sys2Proof.Config

variable {s : State} {raw : List Byte}

/-- The markers of checks 1 to 6 are right (41_validator R80). -/
abbrev markersRight (raw : List Byte) : Prop :=
  raw.take 6 = [0xF0#8, 0x43#8, 0x00#8, 0x09#8, 0x20#8, 0x00#8] ∧ raw[4103]? = some 0xF7#8

/-- The first six bytes of a message, from its single bytes. -/
theorem take_six_of_getElem? {b0 b1 b2 b3 b4 b5 : Byte} (h0 : raw[0]? = some b0) (h1 : raw[1]? = some b1)
    (h2 : raw[2]? = some b2) (h3 : raw[3]? = some b3) (h4 : raw[4]? = some b4) (h5 : raw[5]? = some b5) :
    raw.take 6 = [b0, b1, b2, b3, b4, b5] := by
  simp [List.take_add_one, h0, h1, h2, h3, h4, h5]

/-- A message with a wrong marker fails before check 7, and has no checksum (41_validator R85). -/
theorem validate_of_wrong_marker (h : ¬ markersRight raw) :
    (validate raw).1 ≠ .ok ∧ (validate raw).1 ≠ .errChecksum ∧ (validate raw).2 = none := by
  rw [validate_eq_ite]
  split_ifs with h0 h1 h2 h3 hsize hend
  iterate 6 exact ⟨nofun, nofun, rfl⟩
  all_goals
    obtain ⟨h4, h5⟩ := not_or.1 hsize
    exact absurd ⟨take_six_of_getElem? (not_not.1 h0) (not_not.1 h1) (not_not.1 h2) (not_not.1 h3) (not_not.1 h4)
      (not_not.1 h5), not_not.1 hend⟩ h

/-- A message is valid when its markers are right and its stored byte is the checksum of its payload. -/
theorem validate_eq_ok_iff :
    (validate raw).1 = .ok ↔ markersRight raw ∧ raw[4102]? = some (checksum7 (payloadOf raw)) := by
  by_cases hm : markersRight raw
  · rw [validate_of_markers hm.1 hm.2, and_iff_right hm]
    simp
  · exact ⟨fun h => absurd h (validate_of_wrong_marker hm).1, fun h => absurd h.1 hm⟩

theorem validate_eq_errChecksum_iff :
    (validate raw).1 = .errChecksum ↔ markersRight raw ∧ raw[4102]? ≠ some (checksum7 (payloadOf raw)) := by
  by_cases hm : markersRight raw
  · rw [validate_of_markers hm.1 hm.2, and_iff_right hm]
    simp
  · exact ⟨fun h => absurd h (validate_of_wrong_marker hm).2.1, fun h => absurd h.1 hm⟩

/-- With right markers the checksum comes back, whatever check 7 says of it. -/
theorem validate_checksum (h : markersRight raw) : (validate raw).2 = some (checksum7 (payloadOf raw)) := by
  rw [validate_of_markers h.1 h.2]

end Sys2Proof.Machine
end

section
/-! SUPPORT and PROOFS. Sound states (10_state R23): reset is one, every step keeps them (also R39 and R36), and from
them no step stops. The part of `State.Inv` about the verdict follows from one condition on LEN, BUF, STATUS and CKEXP,
which VAL establishes and every other command but LDB and CLR leaves alone. -/

namespace Sys2Proof.Machine

open Sys2Proof.Config

variable {s t : State}

/-! ### The recorded verdict -/

/-- STATUS and CKEXP are what VAL gives of LEN and BUF (41_validator R84, R86). -/
def State.verdictRecorded (s : State) : Prop :=
  (s.len ≠ 4104 ∧ s.status = .errSize ∧ s.ckexp = 0)
  ∨ (s.len = 4104 ∧ ∃ raw, s.buf.bytes 0 4104 = some raw ∧ s.status = (validate raw).1
      ∧ s.ckexp = (validate raw).2.getD 0)

theorem State.eq_withVerdict_iff {st : Status} {c : Byte} :
    s = { s with status := st, ckexp := c } ↔ s.status = st ∧ s.ckexp = c := by
  refine ⟨fun h => ⟨congrArg State.status h, congrArg State.ckexp h⟩, ?_⟩
  rintro ⟨rfl, rfl⟩
  rfl

theorem applyVerdict_eq_self_iff : s.applyVerdict = .next s ↔ s.verdictRecorded := by
  simp only [State.applyVerdict_eq_next, State.eq_withVerdict_iff, State.verdictRecorded]

/-- VAL records the verdict of the message it found, in any state. -/
theorem exec_val_records (h : exec .val s = .next t) : t.verdictRecorded := by
  rcases State.applyVerdict_eq_next.1 h with ⟨hl, rfl⟩ | ⟨hl, raw, hraw, rfl⟩
  · exact Or.inl ⟨hl, rfl, rfl⟩
  · exact Or.inr ⟨hl, raw, hraw, rfl, rfl⟩

/-- The stored byte of a message in the buffer is its cell 4102. -/
theorem Memory.read_stored {m : Memory} {raw : List Byte} (h : m.bytes 0 4104 = some raw) :
    m.read 4102 = raw[4102]? := by
  rw [Memory.bytes_getElem h (by decide)]

/-- A recorded OK is the verdict of a valid message, with its stored checksum in CKEXP (R23 item 2). -/
theorem State.verdictRecorded.ok (h : s.verdictRecorded) (hst : s.status = .ok) :
    s.len = 4104 ∧ (∃ raw, s.buf.bytes 0 4104 = some raw ∧ (validate raw).1 = .ok)
      ∧ s.buf.read 4102 = some s.ckexp := by
  rcases h with ⟨-, he, -⟩ | ⟨hl, raw, hraw, he, hck⟩
  · cases he.symm.trans hst
  · have hok := he.symm.trans hst
    obtain ⟨hm, hstored⟩ := validate_eq_ok_iff.1 hok
    refine ⟨hl, ⟨raw, hraw, hok⟩, ?_⟩
    rw [Memory.read_stored hraw, hstored, hck, validate_checksum hm, Option.getD_some]

/-- A recorded ERR_CHECKSUM has the computed checksum in CKEXP, and the stored byte is another (R23 item 3). -/
theorem State.verdictRecorded.errChecksum (h : s.verdictRecorded) (hst : s.status = .errChecksum) :
    s.len = 4104 ∧ (∃ p, s.buf.bytes 6 4096 = some p ∧ s.ckexp = checksum7 p)
      ∧ s.buf.read 4102 ≠ some s.ckexp := by
  rcases h with ⟨-, he, -⟩ | ⟨hl, raw, hraw, he, hck⟩
  · cases he.symm.trans hst
  · obtain ⟨hm, hstored⟩ := validate_eq_errChecksum_iff.1 (he.symm.trans hst)
    rw [validate_checksum hm, Option.getD_some] at hck
    refine ⟨hl, ⟨payloadOf raw, Memory.bytes_sub hraw (d := 6) (k := 4096) (by decide), hck⟩, ?_⟩
    rwa [Memory.read_stored hraw, hck]

/-- A recorded CKEXP has 7 bits. -/
theorem State.verdictRecorded.ckexp_le (h : s.verdictRecorded) : s.ckexp.toNat ≤ 0x7F := by
  rcases h with ⟨-, -, hck⟩ | ⟨-, raw, -, -, hck⟩
  · simp [hck]
  · by_cases hm : markersRight raw
    · rw [hck, validate_checksum hm]
      exact Nat.le_of_lt_succ (checksum7_lt _)
    · simp [hck, (validate_of_wrong_marker hm).2.2]

/-- CKEXP is 0 in a recorded verdict that check 7 did not give. -/
theorem State.verdictRecorded.ckexp_eq_zero (h : s.verdictRecorded) (hok : s.status ≠ .ok)
    (hck : s.status ≠ .errChecksum) : s.ckexp = 0 := by
  rcases h with ⟨-, -, hz⟩ | ⟨-, raw, -, he, hz⟩
  · exact hz
  · have hm : ¬ markersRight raw := fun hm => by
      by_cases hstored : raw[4102]? = some (checksum7 (payloadOf raw))
      · exact hok (he.trans (validate_eq_ok_iff.2 ⟨hm, hstored⟩))
      · exact hck (he.trans (validate_eq_errChecksum_iff.2 ⟨hm, hstored⟩))
    rw [hz, (validate_of_wrong_marker hm).2.2, Option.getD_none]

/-! ### What a sound state is made of -/

/-- The part of soundness that does not speak of the verdict: the buffer, RES and the field table (R23 item 1, log
entry 13). -/
structure State.Loaded (s : State) : Prop where
  bufWf : s.buf.wf
  written : ∀ a, (s.buf.read a).isSome = decide (a < min s.len.toNat 4104)
  resZero : s.len.toNat < 4104 → s.res = 0
  tableAdmissible : Admissible s.table

theorem State.Inv.loaded (hs : s.Inv) : s.Loaded := ⟨hs.bufWf, hs.written, hs.resZero, hs.tableAdmissible⟩

/-- A block with a recorded verdict is sound. -/
theorem State.Loaded.inv_of_recorded (hl : s.Loaded) (hv : s.verdictRecorded) : s.Inv where
  bufWf := hl.bufWf
  written := hl.written
  okVerdict := hv.ok
  badChecksum := hv.errChecksum
  ckexpLow := hv.ckexp_le
  ckexpZero := hv.ckexp_eq_zero
  verdictStands _ := applyVerdict_eq_self_iff.2 hv
  resZero := hl.resZero
  tableAdmissible := hl.tableAdmissible

/-- So is a block still LOADING, CKEXP being 0. -/
theorem State.Loaded.inv_of_idle (hl : s.Loaded) (hidle : s.status = .idle) (hck : s.ckexp = 0) : s.Inv where
  bufWf := hl.bufWf
  written := hl.written
  okVerdict h := by cases hidle.symm.trans h
  badChecksum h := by cases hidle.symm.trans h
  ckexpLow := by simp [hck]
  ckexpZero _ _ := hck
  verdictStands h := absurd hidle h
  resZero := hl.resZero
  tableAdmissible := hl.tableAdmissible

/-- A sound state is LOADING or has a recorded verdict. -/
theorem State.Inv.idle_or_recorded (hs : s.Inv) :
    (s.status = .idle ∧ s.ckexp = 0) ∨ s.verdictRecorded := by
  by_cases hidle : s.status = .idle
  · exact Or.inl ⟨hidle, hs.ckexpZero (by simp [hidle]) (by simp [hidle])⟩
  · exact Or.inr (applyVerdict_eq_self_iff.1 (hs.verdictStands hidle))

/-- Soundness does not see FAULT or the host's side, and of RES only that it is 0 before a whole message. -/
theorem State.Inv.congr (hs : s.Inv) (hbuf : t.buf = s.buf) (hlen : t.len = s.len) (hst : t.status = s.status)
    (hck : t.ckexp = s.ckexp) (htable : t.table = s.table) (hres : t.len.toNat < 4104 → t.res = 0) : t.Inv := by
  have hl : t.Loaded :=
    ⟨hbuf ▸ hs.bufWf, by simpa only [hbuf, hlen] using hs.written, hres, htable ▸ hs.tableAdmissible⟩
  rcases hs.idle_or_recorded with ⟨hidle, hz⟩ | hv
  · exact hl.inv_of_idle (hst.trans hidle) (hck.trans hz)
  · refine hl.inv_of_recorded ?_
    simpa only [State.verdictRecorded, hbuf, hlen, hst, hck] using hv

theorem State.Inv.raise (hs : s.Inv) (c : Cause) : (s.raise c).Inv := hs.congr rfl rfl rfl rfl rfl hs.resZero

theorem State.Inv.withHost (hs : s.Inv) (rest : List HostEvent) : State.Inv { s with host := rest } :=
  hs.congr rfl rfl rfl rfl rfl hs.resZero

theorem State.Inv.takeRead (hs : s.Inv) (n : RegNumber) : (s.takeRead n).Inv :=
  hs.congr rfl rfl rfl rfl rfl hs.resZero

/-- RES may be written once a whole message is loaded (10_state R19, 20_memory R36). -/
theorem State.Inv.putRes (hs : s.Inv) (hl : s.len = 4104) (v : Byte) : (s.putRes v).Inv :=
  hs.congr rfl rfl rfl rfl rfl fun h => by simp [hl] at h

/-- A block with an empty buffer, as CLR and reset leave it, is sound. -/
theorem State.inv_of_empty (hT : Admissible s.table) (hbuf : s.buf = []) (hlen : s.len = 0) (hst : s.status = .idle)
    (hck : s.ckexp = 0) (hres : s.res = 0) : s.Inv :=
  State.Loaded.inv_of_idle ⟨hbuf ▸ Memory.wf_nil, fun a => by simp [hbuf, hlen], fun _ => hres, hT⟩ hst hck

/-! ### Every command keeps soundness -/

/-- An accepted LDB writes the one cell that comes to be written: LEN counts it (40_load_control R72). -/
theorem State.Loaded.appended (hl : s.Loaded) (b : Byte) : (s.appended b).Loaded where
  bufWf := State.appended_wf hl.bufWf b
  written a := by
    have hw := hl.written a
    rw [State.appended_read, State.appended_len, countUp_toNat]
    split_ifs with ha
    · simp only [Option.isSome_some, eq_comm (a := true), decide_eq_true_eq]
      omega
    · rw [hw, decide_eq_decide]
      omega
  resZero h := by
    rw [State.appended_len, countUp_toNat] at h
    rw [State.appended_res]
    exact hl.resZero (by omega)
  tableAdmissible := by simpa using hl.tableAdmissible

/-- Extractions write RES only in the VALID phase, when a whole message is loaded (R36). -/
theorem State.Inv.of_extractField (hs : s.Inv) {a bit width : Nat} (h : s.extractField a bit width = .next t) :
    t.Inv := by
  rcases State.extractField_eq_next.1 h with ⟨-, rfl⟩ | ⟨hok, -, b, -, rfl⟩
  · exact hs.raise _
  · exact hs.putRes (hs.okVerdict hok).1 _

theorem State.Inv.of_exec (hs : s.Inv) {i : Instr} (h : exec i s = .next t) : t.Inv := by
  cases i with
  | nop =>
    cases h
    exact hs
  | clr =>
    cases h
    exact State.inv_of_empty hs.tableAdmissible rfl rfl rfl rfl rfl
  | ldb b =>
    rcases execLdb_eq_next.1 h with ⟨-, rfl⟩ | ⟨hidle, rfl⟩
    · exact hs.raise _
    · have hck := hs.ckexpZero (by simp [hidle]) (by simp [hidle])
      exact (hs.loaded.appended b).inv_of_idle (by simpa using hidle) (by simpa using hck)
  | val =>
    have hl : t.Loaded := by
      rw [(exec_val_writes_verdict h).2]
      exact ⟨hs.bufWf, hs.written, hs.resZero, hs.tableAdmissible⟩
    exact hl.inv_of_recorded (exec_val_records h)
  | cks =>
    rcases execCks_eq_next.1 h with ⟨-, rfl⟩ | ⟨hl, p, -, rfl⟩
    · exact hs.raise _
    · exact hs.putRes hl _
  | xbf addr bitoff width =>
    rcases execXbf_eq_next.1 h with ⟨-, rfl⟩ | ⟨-, h⟩
    · exact hs.raise _
    · exact hs.of_extractField h
  | xvf voice field =>
    rcases execXvf_eq_next.1 h with ⟨-, rfl⟩ | ⟨p, -, h⟩
    · exact hs.raise _
    · exact hs.of_extractField h
  | xof voice opr field =>
    rcases execXof_eq_next.1 h with ⟨-, rfl⟩ | ⟨-, p, -, h⟩
    · exact hs.raise _
    · exact hs.of_extractField h

theorem State.Inv.of_commandTurn (hs : s.Inv) {w : Word} (h : commandTurn exec w s = .next t) : t.Inv := by
  rcases commandTurn_cases exec w s with ⟨-, hc⟩ | ⟨-, -, hc⟩ | ⟨-, i, -, hc⟩
  · cases hc.symm.trans h
    exact hs
  · cases hc.symm.trans h
    exact hs.raise _
  · exact hs.of_exec (hc.symm.trans h)

/-! ### Every command completes in a sound state -/

/-- A result command with legal operands completes once STATUS is OK (42_extractor R116 item 6, 41_validator R88). -/
theorem State.Inv.exec_result_of_ok (hs : s.Inv) {i : Instr} (hi : writesRes i = true) (hw : i.wellFormed = true)
    (hok : s.status = .ok) : ∃ v, exec i s = .next (s.putRes v) := by
  by_cases hc : i = .cks
  · subst hc
    exact hs.exec_cks_completes (hs.okVerdict hok).1
  · exact hs.exec_extraction_of_ok (isExtraction_of_writesRes hi hc) hw hok

/-- An extraction completes, with a result or a fault of the block. -/
theorem State.Inv.exec_extraction_completes (hs : s.Inv) {i : Instr} (hi : isExtraction i = true) :
    ∃ t, exec i s = .next t := by
  cases hw : i.wellFormed with
  | false => exact ⟨_, exec_of_not_wellFormed hw s⟩
  | true =>
    by_cases hok : s.status = .ok
    · obtain ⟨v, hv⟩ := hs.exec_extraction_of_ok hi hw hok
      exact ⟨_, hv⟩
    · exact ⟨_, exec_extraction_of_not_ok hi hw hs.tableAdmissible hok⟩

/-- No command stops a sound state (20_memory R36). -/
theorem State.Inv.exec_completes (hs : s.Inv) (i : Instr) : ∃ t, exec i s = .next t := by
  cases i with
  | nop | clr => exact ⟨_, rfl⟩
  | ldb b =>
    by_cases hidle : s.status = .idle
    · exact ⟨_, execLdb_eq_next.2 (Or.inr ⟨hidle, rfl⟩)⟩
    · exact ⟨_, execLdb_eq_next.2 (Or.inl ⟨hidle, rfl⟩)⟩
  | val => exact hs.exec_val_completes
  | cks =>
    by_cases hl : s.len = 4104
    · obtain ⟨v, hv⟩ := hs.exec_cks_completes hl
      exact ⟨_, hv⟩
    · exact ⟨_, execCks_eq_next.2 (Or.inl ⟨hl, rfl⟩)⟩
  | xbf | xvf | xof => exact hs.exec_extraction_completes rfl

/-! ### The reset state -/

/-- The default table meets the six items of R104 (log entry 5). -/
theorem admissible_fieldTable : Admissible fieldTable := by decide +kernel

/-- No two of its fields share a bit (log entry 14). -/
theorem fieldsApart_fieldTable : FieldsApart fieldTable := by decide +kernel

theorem State.resetWith_inv {T : FieldTable} (hT : Admissible T) : (State.resetWith T).Inv :=
  State.inv_of_empty hT rfl rfl rfl rfl rfl

/-! ### The obligations -/

/-- Settles O39, by computation on the table's fifty fields. -/
theorem defaultTableAdmissible : Obligations.DefaultTableAdmissible := by
  unfold Obligations.DefaultTableAdmissible
  exact ⟨admissible_fieldTable, fieldsApart_fieldTable⟩

/-- Settles O48: the block is empty, and the default table is admissible. -/
theorem resetIsSound : Obligations.ResetIsSound := by
  unfold Obligations.ResetIsSound
  exact ⟨State.resetWith_inv admissible_fieldTable, fun T hT => ⟨rfl, State.resetWith_inv hT⟩⟩

/-- Settles O49, by the host's transaction: a command word's turn by `State.Inv.of_commandTurn`, a reset leaves the
empty block. -/
theorem stepKeepsInv : Obligations.StepKeepsInv := by
  unfold Obligations.StepKeepsInv
  intro s t hs h
  rcases step_cases s with ⟨-, he⟩ | ⟨w, rest, -, he⟩ | ⟨n, rest, -, he⟩ | ⟨rest, -, he⟩
  · cases he.symm.trans h
    exact hs
  · exact (hs.withHost rest).of_commandTurn (he.symm.trans h)
  · cases he.symm.trans h
    exact (hs.withHost rest).takeRead n
  · cases he.symm.trans h
    exact State.inv_of_empty hs.tableAdmissible rfl rfl rfl rfl rfl

/-- Settles O50: a word's turn is ignored, raises ILLEGAL_CMD or runs a command, which completes. -/
theorem soundStatesNeverStop : Obligations.SoundStatesNeverStop := by
  unfold Obligations.SoundStatesNeverStop
  intro s hs
  rcases step_cases s with ⟨-, he⟩ | ⟨w, rest, -, he⟩ | ⟨n, rest, -, he⟩ | ⟨rest, -, he⟩
  · exact ⟨_, he⟩
  · rw [he]
    rcases commandTurn_cases exec w { s with host := rest } with ⟨-, hc⟩ | ⟨-, -, hc⟩ | ⟨-, i, -, hc⟩
    · exact ⟨_, hc⟩
    · exact ⟨_, hc⟩
    · rw [hc]
      exact (hs.withHost rest).exec_completes i
  · exact ⟨_, he⟩
  · exact ⟨_, he⟩

/-- Settles O43: RES is written, by `State.Inv.exec_result_of_ok`. -/
theorem legalExtractionCompletes : Obligations.LegalExtractionCompletes := by
  unfold Obligations.LegalExtractionCompletes
  exact fun i s hs hok hi hw => hs.exec_result_of_ok hi hw hok

/-- Settles O29: the message in the buffer is valid, so its stored byte, which CKEXP holds, is the checksum of its
payload, which CKS computes again. -/
theorem cksAgreesWithVerdict : Obligations.CksAgreesWithVerdict := by
  unfold Obligations.CksAgreesWithVerdict
  intro s hs hok
  obtain ⟨hl, ⟨raw, hraw, hvalid⟩, hstored⟩ := hs.okVerdict hok
  have hck : checksum7 (payloadOf raw) = s.ckexp := by
    rw [Memory.read_stored hraw, (validate_eq_ok_iff.1 hvalid).2] at hstored
    exact Option.some.inj hstored
  have hp : s.buf.bytes 6 4096 = some (payloadOf raw) := Memory.bytes_sub hraw (d := 6) (k := 4096) (by decide)
  exact ⟨_, execCks_eq_next.2 (Or.inr ⟨hl, _, hp, rfl⟩), hck, hck ▸ hstored, rfl⟩

end Sys2Proof.Machine
end

section
/-! SUPPORT and PROOFS. The step of an unfaulted block on a command word (60_exceptions R135), what a reset leaves of
the host's side (70_reset_and_hazards R150), and the field table as an argument of the model (10_state section 1). -/

namespace Sys2Proof.Machine

open Sys2Proof.Config

variable {s t : State}

/-! ### The step on a command word -/

theorem commandTurn_of_decode {run : Instr → State → Result} {w : Word} {i : Instr} (hf : s.fault = .none)
    (hd : decode w = .ok i) : commandTurn run w s = run i s := by
  rcases commandTurn_cases run w s with ⟨hn, -⟩ | ⟨-, ⟨e, he⟩, -⟩ | ⟨-, j, hj, hc⟩
  · exact absurd hf hn
  · cases he.symm.trans hd
  · cases hj.symm.trans hd
    exact hc

theorem step_of_decode {w : Word} {rest : List HostEvent} {i : Instr} (hh : s.host = .command w :: rest)
    (hf : s.fault = .none) (hd : decode w = .ok i) : step s = exec i { s with host := rest } :=
  (step_of_command hh).trans (commandTurn_of_decode hf hd)

/-- The same when the host presents a command's own word. -/
theorem step_of_encode {rest : List HostEvent} {i : Instr} (hh : s.host = .command (encode i) :: rest)
    (hf : s.fault = .none) : step s = exec i { s with host := rest } :=
  step_of_decode hh hf (decode_eq_ok_iff_eq_encode.2 rfl)

/-- `withFetchWord` presents the whole word: 32 bits lose nothing (log entry 8). -/
theorem State.withFetchWord_toNat (s : State) (w : Word) : s.withFetchWord 32 w.toNat = s.present (.command w) := by
  rw [State.withFetchWord, Nat.mod_eq_of_lt w.isLt, BitVec.ofNat_toNat, BitVec.setWidth_eq]

/-! ### The field table -/

theorem exec_keeps_table {i : Instr} (h : exec i s = .next t) : t.table = s.table := by
  cases i with
  | nop | clr =>
    cases h
    rfl
  | ldb b =>
    rcases execLdb_eq_next.1 h with ⟨-, rfl⟩ | ⟨-, rfl⟩
    · rfl
    · exact State.appended_table s b
  | val => rw [(exec_val_writes_verdict h).2]
  | cks | xbf | xvf | xof =>
    rcases exec_raises_or_putsRes rfl h with ⟨c, rfl⟩ | ⟨v, rfl⟩
    · rfl
    · rfl

/-- No transaction of the host changes the field table (70_reset_and_hazards R156). -/
theorem step_keeps_table (h : step s = .next t) : t.table = s.table := by
  rcases step_cases s with ⟨-, he⟩ | ⟨w, rest, -, he⟩ | ⟨n, rest, -, he⟩ | ⟨rest, -, he⟩
  · cases he.symm.trans h
    rfl
  · have hturn := he.symm.trans h
    rcases commandTurn_cases exec w { s with host := rest } with ⟨-, hc⟩ | ⟨-, -, hc⟩ | ⟨-, i, -, hc⟩
    · cases hc.symm.trans hturn
      rfl
    · cases hc.symm.trans hturn
      rfl
    · exact exec_keeps_table (s := { s with host := rest }) (hc.symm.trans hturn)
  · cases he.symm.trans h
    rfl
  · cases he.symm.trans h
    rfl

/-- A run that goes on has taken its first step. -/
theorem core_run_succ_eq_next {n : Nat} (h : core.run (n + 1) s = .next t) :
    ∃ u, step s = .next u ∧ core.run n u = .next t := by
  cases hs : step s with
  | next u => exact ⟨u, rfl, (core_run_succ hs).symm.trans h⟩
  | fault r =>
    have hstop : core.step s = .fault r := hs
    simp [Host.Core.run, hstop] at h
  | refused r =>
    have hstop : core.step s = .refused r := hs
    simp [Host.Core.run, hstop] at h

theorem core_run_keeps_table {n : Nat} (h : core.run n s = .next t) : t.table = s.table := by
  induction n generalizing s with
  | zero =>
    cases h
    rfl
  | succ n ih =>
    obtain ⟨u, hu, hrun⟩ := core_run_succ_eq_next h
    exact (ih hrun).trans (step_keeps_table hu)

/-- The machine with another table runs by the same step (log entry 15). -/
theorem coreWith_run (T : FieldTable) (n : Nat) (s : State) : (coreWith T).run n s = core.run n s := by
  induction n generalizing s with
  | zero => rfl
  | succ n ih =>
    have hstep : (coreWith T).step s = step s := rfl
    have hstep' : core.step s = step s := rfl
    simp only [Host.Core.run]
    rw [hstep, hstep']
    cases step s with
    | next u => exact ih u
    | fault r => rfl
    | refused r => rfl

/-! ### Commands that do not read the table -/

/-- An accepted LDB does not read the table. -/
theorem State.appended_withTable (s : State) (T : FieldTable) (b : Byte) :
    State.appended { s with table := T } b = { s.appended b with table := T } := by
  rw [State.appended, State.appended, show loadAddr { s with table := T } = loadAddr s from rfl]
  cases loadAddr s with
  | none => rfl
  | some a => rfl

theorem extractField_withTable {a bit width : Nat} (T : FieldTable) (h : s.extractField a bit width = .next t) :
    State.extractField { s with table := T } a bit width = .next { t with table := T } := by
  rcases State.extractField_eq_next.1 h with ⟨hok, rfl⟩ | ⟨hok, ha, b, hb, rfl⟩
  · exact State.extractField_eq_next.2 (Or.inl ⟨hok, rfl⟩)
  · exact State.extractField_eq_next.2 (Or.inr ⟨hok, ha, b, hb, rfl⟩)

/-- XVF and XOF alone read the table (log entry 15). -/
theorem exec_withTable {i : Instr} (T : FieldTable) (hxvf : ∀ voice field, i ≠ .xvf voice field)
    (hxof : ∀ voice opr field, i ≠ .xof voice opr field) (h : exec i s = .next t) :
    exec i { s with table := T } = .next { t with table := T } := by
  cases i with
  | nop | clr =>
    cases h
    rfl
  | ldb b =>
    rcases execLdb_eq_next.1 h with ⟨hst, rfl⟩ | ⟨hst, rfl⟩
    · exact execLdb_eq_next.2 (Or.inl ⟨hst, rfl⟩)
    · exact execLdb_eq_next.2 (Or.inr ⟨hst, (s.appended_withTable T b).symm⟩)
  | val =>
    rcases State.applyVerdict_eq_next.1 h with ⟨hl, rfl⟩ | ⟨hl, raw, hraw, rfl⟩
    · exact State.applyVerdict_eq_next.2 (Or.inl ⟨hl, rfl⟩)
    · exact State.applyVerdict_eq_next.2 (Or.inr ⟨hl, raw, hraw, rfl⟩)
  | cks =>
    rcases execCks_eq_next.1 h with ⟨hl, rfl⟩ | ⟨hl, p, hp, rfl⟩
    · exact execCks_eq_next.2 (Or.inl ⟨hl, rfl⟩)
    · exact execCks_eq_next.2 (Or.inr ⟨hl, p, hp, rfl⟩)
  | xbf addr bitoff width =>
    rcases execXbf_eq_next.1 h with ⟨hbad, rfl⟩ | ⟨hok, h⟩
    · exact execXbf_eq_next.2 (Or.inl ⟨hbad, rfl⟩)
    · exact execXbf_eq_next.2 (Or.inr ⟨hok, extractField_withTable T h⟩)
  | xvf voice field => exact absurd rfl (hxvf voice field)
  | xof voice opr field => exact absurd rfl (hxof voice opr field)

/-! ### The obligations -/

/-- Settles O7, by the turn of a word that decodes. -/
theorem stepRunsDecodedCommand : Obligations.StepRunsDecodedCommand := by
  unfold Obligations.StepRunsDecodedCommand
  refine ⟨fun s w rest i hh hf hd => step_of_decode hh hf hd, fun s w i hf hd => ?_⟩
  rw [State.withFetchWord_toNat]
  exact step_of_decode (s := s.present (.command w)) rfl hf hd

/-- Settles O52: `takeReset` writes the block's own six pieces of state. -/
theorem resetKeepsHostSide : Obligations.ResetKeepsHostSide := by
  unfold Obligations.ResetKeepsHostSide
  exact fun s rest hh => ⟨_, step_of_reset hh, State.takeReset_host _, State.takeReset_seen _, State.takeReset_table _⟩

/-- Settles O53: `step_keeps_table`, over a run too, and `exec_withTable`. -/
theorem fieldTableIsAnArgument : Obligations.FieldTableIsAnArgument := by
  unfold Obligations.FieldTableIsAnArgument
  refine ⟨fun s t h => step_keeps_table h, fun i s t T hxvf hxof h => exec_withTable T hxvf hxof h,
    fun T n es t h => ?_⟩
  exact core_run_keeps_table ((coreWith_run T n _).symm.trans h)

end Sys2Proof.Machine
end

section
/-! SUPPORT and PROOFS. Frames of the load and control commands, and loading a message (40_load_control section 4): byte
by byte into the buffer in arrival order, and then its verdict (41_validator R84, R86). -/

namespace Sys2Proof.Machine

variable {s t : State}

/-! ### What the block holds while a message is loaded -/

/-- The block has been sent the bytes `pre` since it was empty: the first 4104 of them lie in BUF, and LEN has counted
them (40_load_control R72). -/
def State.holds (s : State) (pre : List Byte) : Prop :=
  s.len.toNat = min pre.length 65535 ∧ ∀ a, s.buf.read a = (pre.take 4104)[a]?

theorem State.holds_nil (hlen : s.len = 0) (hbuf : s.buf = []) : s.holds [] := by
  simp [State.holds, hlen, hbuf]

/-- The first 4104 bytes of a message that gets one byte more: the byte comes after the others, if there is room. -/
theorem getElem?_take_concat (pre : List Byte) (b : Byte) (n a : Nat) :
    ((pre ++ [b]).take n)[a]? = if a = pre.length ∧ pre.length < n then some b else (pre.take n)[a]? := by
  simp only [List.getElem?_take]
  rcases Nat.lt_trichotomy a pre.length with ha | rfl | ha
  · simp [List.getElem?_append_left ha, ha.ne]
  · simp
  · simp [List.getElem?_append_right ha.le, List.getElem?_eq_none ha.le, ha.ne', Nat.sub_ne_zero_of_lt ha]

/-- An accepted LDB appends its byte to what the block holds. -/
theorem State.holds.appended {pre : List Byte} (h : s.holds pre) (b : Byte) : (s.appended b).holds (pre ++ [b]) := by
  obtain ⟨hlen, hread⟩ := h
  refine ⟨?_, fun a => ?_⟩
  · rw [State.appended_len, countUp_toNat, hlen, List.length_append, List.length_singleton]
    omega
  · have hnew : (a = s.len.toNat ∧ s.len.toNat < 4104) ↔ (a = pre.length ∧ pre.length < 4104) := by omega
    rw [State.appended_read, getElem?_take_concat, hread]
    exact if_congr hnew rfl rfl

/-- A block that holds a message of 4104 bytes has it in its cells. -/
theorem State.holds.bytes {m : List Byte} (h : s.holds m) (hm : m.length = 4104) :
    s.buf.bytes 0 4104 = some m := by
  have hread (a : Nat) : s.buf.read a = m[a]? := by rw [h.2, List.take_of_length_le (by omega)]
  obtain ⟨raw, hraw⟩ := Memory.bytes_of_written (m := s.buf) (a := 0) (n := 4104) fun k hk => by
    rw [Nat.zero_add, hread, List.getElem?_eq_getElem (by omega), Option.isSome_some]
  rw [hraw]
  refine congrArg some (List.ext_getElem? fun k => ?_)
  by_cases hk : k < 4104
  · rw [Memory.bytes_getElem hraw hk, Nat.zero_add, hread]
  · rw [List.getElem?_eq_none (by rw [Memory.bytes_length hraw]; omega), List.getElem?_eq_none (by omega)]

/-- The count tells a message of 4104 bytes from every other, saturated or not (40_load_control R72). -/
theorem State.holds.len_eq_iff {m : List Byte} (h : s.holds m) : s.len = 4104 ↔ m.length = 4104 := by
  have hlen := h.1
  rw [← BitVec.toNat_inj, show (4104 : BitVec 16).toNat = 4104 from rfl]
  omega

/-! ### Runs that load a message -/

/-- The host's next transactions are the words of LDB for the bytes of `m`. -/
abbrev loadWords (m : List Byte) : List HostEvent := m.map fun b => .command (encode (.ldb b))

/-- An unfaulted LOADING block appends the byte of the next LDB. -/
theorem step_of_ldb {b : Byte} {rest : List HostEvent} (hidle : s.status = .idle) (hf : s.fault = .none)
    (hh : s.host = .command (encode (.ldb b)) :: rest) :
    step s = .next (State.appended { s with host := rest } b) :=
  (step_of_encode hh hf).trans (execLdb_eq_next.2 (Or.inr ⟨hidle, rfl⟩))

/-- Loading goes on from what the block holds already (40_load_control section 4). -/
theorem core_run_loadWords {m pre : List Byte} {rest : List HostEvent} (hidle : s.status = .idle)
    (hf : s.fault = .none) (hs : s.holds pre) (hh : s.host = loadWords m ++ rest) :
    ∃ t, core.run m.length s = .next t ∧ t = { s with buf := t.buf, len := t.len, host := rest }
      ∧ t.holds (pre ++ m) := by
  induction m generalizing s pre with
  | nil =>
    obtain rfl : s.host = rest := hh
    exact ⟨s, rfl, rfl, by rwa [List.append_nil]⟩
  | cons b m ih =>
    have hnext : (State.appended { s with host := loadWords m ++ rest } b).holds (pre ++ [b]) :=
      State.holds.appended (s := { s with host := loadWords m ++ rest }) hs b
    obtain ⟨t, hrun, hframe, ht⟩ := ih (by rw [State.appended_status, hidle]) (by rw [State.appended_fault, hf]) hnext
      (State.appended_host _ b)
    refine ⟨t, (core_run_succ (step_of_ldb hidle hf hh)).trans hrun, ?_, by simpa using ht⟩
    rw [State.appended_frame] at hframe
    exact hframe

/-- A run, and then one step more. -/
theorem core_run_then_step {n : Nat} {u : State} (h : core.run n s = .next t) (hstep : step t = .next u) :
    core.run (n + 1) s = .next u := by
  induction n generalizing s with
  | zero =>
    cases h
    exact core_run_succ hstep
  | succ n ih =>
    obtain ⟨v, hv, hrun⟩ := core_run_succ_eq_next h
    exact (core_run_succ hv).trans (ih hrun)

/-- VAL gives the verdict of the message the block holds, of any length (41_validator R84, R86). -/
theorem State.holds.exec_val {m : List Byte} (h : s.holds m) :
    exec .val s = .next
      (if m.length = 4104 then { s with status := (validate m).1, ckexp := (validate m).2.getD 0 }
      else { s with status := .errSize, ckexp := 0 }) := by
  by_cases hm : m.length = 4104
  · rw [if_pos hm]
    exact State.applyVerdict_eq_next.2 (Or.inr ⟨h.len_eq_iff.2 hm, m, h.bytes hm, rfl⟩)
  · rw [if_neg hm]
    exact State.applyVerdict_eq_next.2 (Or.inl ⟨mt h.len_eq_iff.1 hm, rfl⟩)

/-! ### The obligations -/

/-- Settles O15: a locked block is left as it was but for FAULT, an accepted byte goes to the cell of `loadAddr`. -/
theorem ldbFrame : Obligations.LdbFrame := by
  unfold Obligations.LdbFrame
  intro b s t h
  rcases execLdb_eq_next.1 h with ⟨hst, rfl⟩ | ⟨hst, rfl⟩
  · exact ⟨rfl, fun _ => ⟨rfl, fun _ => rfl⟩, fun hidle => absurd hidle hst⟩
  · have hother {a : Nat} (ha : loadAddr s ≠ some a) : (s.appended b).buf.read a = s.buf.read a := by
      rw [State.appended_read, if_neg]
      rintro ⟨rfl, hlt⟩
      exact ha (if_pos hlt)
    refine ⟨?_, fun hne => absurd hst hne, fun _ => ⟨State.appended_fault s b, fun x hx a ha => ?_, fun hn a => ?_⟩⟩
    · rw [State.appended_fault]
      exact s.appended_frame b
    · exact hother (by simp [hx, ha.symm])
    · exact hother (by simp [hn])

/-- Settles O16: NOP and CLR by definition, VAL by `exec_val_writes_verdict`. -/
theorem controlFrames : Obligations.ControlFrames := by
  unfold Obligations.ControlFrames
  refine ⟨fun s t h => ?_, fun s t h => ?_, fun s t h => ?_⟩
  · cases h
    rfl
  · cases h
    exact ⟨rfl, rfl, rfl⟩
  · have hframe := (exec_val_writes_verdict h).2
    exact ⟨hframe, fun a => by rw [hframe]⟩

/-- Settles O20: VAL records the verdict, and a recorded verdict is one that VAL gives again. -/
theorem valIsIdempotent : Obligations.ValIsIdempotent := by
  unfold Obligations.ValIsIdempotent
  exact fun s t h => applyVerdict_eq_self_iff.2 (exec_val_records h)

/-- Settles O17, from the empty block by `core_run_loadWords`. -/
theorem loadingStoresInArrivalOrder : Obligations.LoadingStoresInArrivalOrder := by
  unfold Obligations.LoadingStoresInArrivalOrder
  intro m s rest hidle hf hlen hbuf hh
  obtain ⟨t, hrun, hframe, hcount, hread⟩ := core_run_loadWords hidle hf (State.holds_nil hlen hbuf) hh
  exact ⟨t, hrun, hframe, hcount, hread⟩

/-- Settles O18: the load by `core_run_loadWords`, then VAL's step on what the block holds. -/
theorem loadThenValGivesVerdict : Obligations.LoadThenValGivesVerdict := by
  unfold Obligations.LoadThenValGivesVerdict
  intro m s rest hidle hf hlen hbuf hh
  obtain ⟨t, hrun, hframe, hm⟩ := core_run_loadWords hidle hf (State.holds_nil hlen hbuf) hh
  rw [List.nil_append] at hm
  have hhost : t.host = .command (encode .val) :: rest := by rw [hframe]
  have hfault : t.fault = .none := by rw [hframe]; exact hf
  have hres : t.res = s.res := by rw [hframe]
  have hval := State.holds.exec_val (s := { t with host := rest }) hm
  refine ⟨_, core_run_then_step hrun ((step_of_encode hhost hfault).trans hval), ?_⟩
  split_ifs with h
  · exact ⟨hfault, hres, rfl, fun hne => absurd h hne, fun _ => ⟨rfl, rfl⟩⟩
  · exact ⟨hfault, hres, rfl, fun _ => ⟨rfl, rfl⟩, fun he => absurd he h⟩

end Sys2Proof.Machine
end

section
/-! SUPPORT and PROOFS. What the checksum sees (41_validator sections 2 and 7): the sum of the bytes modulo 128, so the
low seven bits of each byte; and what check 7 makes of a changed message. -/

namespace Sys2Proof.Machine

variable {raw p : List Byte}

/-! ### The checksum modulo 128 -/

/-- Masking each byte does not show modulo 128 (41_validator section 2). -/
theorem maskedSum_mod (p : List Byte) : maskedSum p % 128 = (p.map BitVec.toNat).sum % 128 := by
  induction p with
  | nil => rfl
  | cons b p ih =>
    rw [maskedSum_cons, List.map_cons, List.sum_cons]
    omega

/-- A replaced byte takes its low seven bits out of the sum, and the new one brings its own in. -/
theorem maskedSum_set {k : Nat} {b : Byte} (h : p[k]? = some b) (c : Byte) :
    maskedSum (p.set k c) + b.toNat % 128 = maskedSum p + c.toNat % 128 := by
  induction p generalizing k with
  | nil => simp at h
  | cons d p ih =>
    cases k with
    | zero =>
      obtain rfl : d = b := by simpa using h
      rw [List.set_cons_zero, maskedSum_cons, maskedSum_cons]
      omega
    | succ k =>
      have hp := ih (k := k) (by simpa using h)
      rw [List.set_cons_succ, maskedSum_cons, maskedSum_cons]
      omega

/-- Two checksums are the same when the sums are the same modulo 128. -/
theorem checksum7_eq_iff {p q : List Byte} : checksum7 p = checksum7 q ↔ maskedSum p % 128 = maskedSum q % 128 := by
  rw [← BitVec.toNat_inj, checksum7_toNat, checksum7_toNat]
  omega

/-- Replacing a byte keeps the checksum exactly when the low seven bits stay (41_validator section 7). -/
theorem checksum7_set_eq_iff {k : Nat} {b : Byte} (h : p[k]? = some b) (c : Byte) :
    checksum7 (p.set k c) = checksum7 p ↔ c.toNat % 128 = b.toNat % 128 := by
  have hsum := maskedSum_set h c
  rw [checksum7_eq_iff]
  omega

/-! ### Messages with one byte replaced -/

/-- The markers stand at offsets 0 to 5 and 4103: another byte replaced leaves them. -/
theorem markersRight.set (h : markersRight raw) {k : Nat} (hk : 6 ≤ k) (hend : k ≠ 4103) (c : Byte) :
    markersRight (raw.set k c) := by
  obtain ⟨hhead, hlast⟩ := h
  exact ⟨by rwa [List.take_set_of_le hk], by rwa [List.getElem?_set_ne hend]⟩

/-- A payload byte replaced in the message is replaced in its payload. -/
theorem payloadOf_set {k : Nat} (hk : 6 ≤ k) (c : Byte) : payloadOf (raw.set k c) = (payloadOf raw).set (k - 6) c := by
  rw [payloadOf, payloadOf, List.drop_set, if_neg (Nat.not_lt.2 hk), List.take_set]

theorem payloadOf_getElem? {k : Nat} (hk : k < 4096) : (payloadOf raw)[k]? = raw[6 + k]? := by
  rw [payloadOf, List.getElem?_take_of_lt hk, List.getElem?_drop]

/-- The stored byte is no part of the payload. -/
theorem payloadOf_set_stored (hlen : raw.length = 4104) (c : Byte) : payloadOf (raw.set 4102 c) = payloadOf raw := by
  rw [payloadOf_set (by decide), List.set_eq_of_length_le (by rw [payloadOf_length hlen])]

/-! ### The obligations -/

/-- Settles O23: the checksum is a function of the sum modulo 128, and 128 divides `2^W`. -/
theorem checksumIgnoresAccumulatorWidth : Obligations.ChecksumIgnoresAccumulatorWidth := by
  unfold Obligations.ChecksumIgnoresAccumulatorWidth
  intro p W hW
  have hdvd : 128 ∣ 2 ^ W := pow_dvd_pow 2 hW
  rw [Nat.mod_mod_of_dvd _ hdvd, checksum7_toNat, maskedSum_mod]
  exact ⟨rfl, by omega⟩

/-- Settles O24, by `checksum7_set_eq_iff`. -/
theorem checksumSeesLowSevenBits : Obligations.ChecksumSeesLowSevenBits := by
  unfold Obligations.ChecksumSeesLowSevenBits
  exact fun p k b c h => checksum7_set_eq_iff h c

/-- Settles O25: the markers and the stored byte stay, and the computed checksum does not. -/
theorem payloadChangeRejected : Obligations.PayloadChangeRejected := by
  unfold Obligations.PayloadChangeRejected
  intro raw k b c _ hok hlo hhi hb hc
  obtain ⟨hm, hstored⟩ := validate_eq_ok_iff.1 hok
  have hb' : (payloadOf raw)[k - 6]? = some b := by
    rw [payloadOf_getElem? (by omega), Nat.add_sub_cancel' hlo, hb]
  refine validate_eq_errChecksum_iff.2 ⟨hm.set hlo (by omega) c, ?_⟩
  rw [List.getElem?_set_ne (by omega), hstored, payloadOf_set hlo]
  intro heq
  exact hc ((checksum7_set_eq_iff hb' c).1 (Option.some.inj heq).symm)

/-- Settles O27: the byte is the checksum of the payload, which the stored byte does not enter. -/
theorem oneStoredByteValidates : Obligations.OneStoredByteValidates := by
  unfold Obligations.OneStoredByteValidates
  intro raw hlen hhead hend
  refine ⟨checksum7 (payloadOf raw), checksum7_lt _, fun d => ?_⟩
  have hm : markersRight (raw.set 4102 d) := markersRight.set ⟨hhead, hend⟩ (by decide) (by decide) d
  rw [validate_eq_ok_iff, and_iff_right hm, payloadOf_set_stored hlen, List.getElem?_set_self (by omega),
    Option.some.injEq]

end Sys2Proof.Machine
end

section
/-! SUPPORT and PROOFS. The laws of the extractions (42_extractor section 7) and of the result commands: frames, order,
the addresses of named fields (R115), and the fields of a byte (R104, R116 item 5). -/

namespace Sys2Proof.Machine

open Sys2Proof.Config

variable {s t u : State} {T : FieldTable} {p q : FieldPos}

/-! ### Addresses of named fields -/

/-- A voice-level field lies in its voice's record (42_extractor R115). -/
theorem voiceFieldAddr_in_record (hT : Admissible T) (voice : BitVec 5) {field : BitVec 6}
    (hp : voiceFieldPos T field = some p) :
    6 + 128 * voice.toNat ≤ voiceFieldAddr voice p ∧ voiceFieldAddr voice p ≤ 6 + 128 * voice.toNat + 127 := by
  rw [voiceFieldPos_eq] at hp
  have hbyte := (admissible_vt hT (mem_toList_of_getElem? hp)).2
  simp only [voiceFieldAddr, voiceBase, payloadOff, voiceSize]
  omega

/-- So does an operator field: its disk slot is one of the six. -/
theorem opFieldAddr_in_record (hT : Admissible T) (voice : BitVec 5) (opr : BitVec 3) {field : BitVec 6}
    (hp : opFieldPos T field = some p) :
    6 + 128 * voice.toNat ≤ opFieldAddr T voice opr p ∧ opFieldAddr T voice opr p ≤ 6 + 128 * voice.toNat + 127 := by
  rw [opFieldPos_eq] at hp
  have hslot : diskSlot opr.toNat < 6 := Nat.lt_succ_of_le (Nat.sub_le 5 _)
  have hbyte : T.opBase + T.opSize * diskSlot opr.toNat + p.byte ≤ 127 :=
    (admissible_voicePositions hT
      (mem_voicePositions.2 (Or.inr ⟨_, hslot, p, mem_toList_of_getElem? hp, rfl⟩))).2
  simp only [opFieldAddr, voiceBase, payloadOff, voiceSize]
  omega

/-! ### Named extractions as raw ones -/

/-- XVF of a field of an admissible table is XBF at the field's address (R116 item 1). -/
theorem exec_xvf_eq_raw {voice : BitVec 5} {field : BitVec 6} (hT : Admissible s.table)
    (hp : voiceFieldPos s.table field = some p) :
    exec (.xvf voice field) s = exec (rawField (voiceFieldAddr voice p) p) s := by
  have hin := (admissible_vt hT (mem_toList_of_getElem? ((voiceFieldPos_eq _ _).symm.trans hp))).1
  rw [exec_xvf_of_pos hp, exec_rawField (voiceFieldAddr_lt hT voice hp) hin]

/-- XOF, the same. -/
theorem exec_xof_eq_raw {voice : BitVec 5} {opr : BitVec 3} {field : BitVec 6} (hT : Admissible s.table)
    (ho : opr.toNat ≤ 5) (hp : opFieldPos s.table field = some p) :
    exec (.xof voice opr field) s = exec (rawField (opFieldAddr s.table voice opr p) p) s := by
  have hin := (admissible_opt hT (mem_toList_of_getElem? ((opFieldPos_eq _ _).symm.trans hp))).1
  rw [exec_xof_of_pos ho hp, exec_rawField (opFieldAddr_lt hT voice opr hp) hin]

/-! ### Results of commands that do not fault -/

/-- An extraction that leaves no fault was in the VALID phase and wrote the named bits of a cell. -/
theorem extractField_unfaulted {a bit width : Nat} (h : s.extractField a bit width = .next t) (ht : t.fault = .none) :
    s.status = .ok ∧ a < 4104 ∧ ∃ b, s.buf.read a = some b ∧ t = s.putRes (extract b bit width) := by
  rcases State.extractField_eq_next.1 h with ⟨-, rfl⟩ | hres
  · cases ht
  · exact hres

/-- An extraction that leaves no fault takes one and the same field of one and the same cell in all states with the same
table, and its width is the one `fieldWidth` names. -/
theorem exec_extraction_unfaulted {i : Instr} (hi : isExtraction i = true) (h : exec i s = .next t)
    (ht : t.fault = .none) : ∃ a bit width, fieldWidth s.table i = some width ∧
      ∀ s' : State, s'.table = s.table → exec i s' = s'.extractField a bit width := by
  cases i with
  | nop | clr | ldb | val | cks => simp [isExtraction] at hi
  | xbf addr bitoff width =>
    rcases execXbf_eq_next.1 h with ⟨-, rfl⟩ | ⟨hlegal, -⟩
    · cases ht
    · exact ⟨_, _, _, rfl, fun s' _ => if_neg (Bool.eq_false_iff.1 hlegal)⟩
  | xvf voice field =>
    rcases execXvf_eq_next.1 h with ⟨-, rfl⟩ | ⟨p, hp, -⟩
    · cases ht
    · exact ⟨_, _, p.width, by rw [fieldWidth, hp, Option.map_some], fun s' hs' => exec_xvf_of_pos (hs' ▸ hp)⟩
  | xof voice opr field =>
    rcases execXof_eq_next.1 h with ⟨-, rfl⟩ | ⟨ho, p, hp, -⟩
    · cases ht
    · refine ⟨opFieldAddr s.table voice opr p, p.bit, p.width, by rw [fieldWidth, hp, Option.map_some],
        fun s' hs' => ?_⟩
      rw [← hs'] at hp ⊢
      exact exec_xof_of_pos ho hp

/-- A result command that leaves no fault writes RES, and would write the same after another has (R116 item 3). -/
theorem exec_result_unfaulted {i : Instr} (hi : writesRes i = true) (h : exec i s = .next t) (ht : t.fault = .none) :
    ∃ v, t = s.putRes v ∧ ∀ r, exec i (s.putRes r) = .next t := by
  by_cases hc : i = .cks
  · subst hc
    rcases execCks_eq_next.1 h with ⟨-, rfl⟩ | ⟨hl, p, hp, rfl⟩
    · cases ht
    · exact ⟨_, rfl, fun r => execCks_eq_next.2 (Or.inr ⟨hl, p, hp, rfl⟩)⟩
  · obtain ⟨a, bit, width, -, hx⟩ := exec_extraction_unfaulted (isExtraction_of_writesRes hi hc) h ht
    obtain ⟨hok, ha, b, hb, rfl⟩ := extractField_unfaulted ((hx s rfl).symm.trans h) ht
    exact ⟨_, rfl, fun r => (hx (s.putRes r) rfl).trans (State.extractField_eq_next.2 (Or.inr ⟨hok, ha, b, hb, rfl⟩))⟩

/-- So a result command may come before another, if neither faults (R116 item 3). -/
theorem exec_result_after_result {i j : Instr} (hi : writesRes i = true) (hj : writesRes j = true)
    (h : exec i s = .next t) (ht : t.fault = .none) (h' : exec j s = .next u) (hu : u.fault = .none) :
    exec j t = .next u := by
  obtain ⟨v, rfl, -⟩ := exec_result_unfaulted hi h ht
  obtain ⟨-, -, hagain⟩ := exec_result_unfaulted hj h' hu
  exact hagain v

theorem writesRes_of_isExtraction {i : Instr} (hi : isExtraction i = true) : writesRes i = true := by
  cases i with
  | nop | clr | ldb | val | cks => simp [isExtraction] at hi
  | xbf | xvf | xof => rfl

/-- The result of an extraction has no more bits than its field (R116 item 2). -/
theorem exec_res_below_width {i : Instr} {w : Nat} (hw : fieldWidth s.table i = some w) (h : exec i s = .next t)
    (ht : t.fault = .none) : t.res.toNat < 2 ^ w ∧ ∀ k, w ≤ k → t.res.getLsbD k = false := by
  have hi : isExtraction i = true := by
    cases i with
    | nop | clr | ldb | val | cks => simp [fieldWidth] at hw
    | xbf | xvf | xof => rfl
  obtain ⟨a, bit, width, hwidth, hx⟩ := exec_extraction_unfaulted hi h ht
  obtain rfl : width = w := Option.some.inj (hwidth.symm.trans hw)
  obtain ⟨-, -, b, -, rfl⟩ := extractField_unfaulted ((hx s rfl).symm.trans h) ht
  rw [State.putRes_res]
  refine ⟨?_, fun k hk => ?_⟩
  · rw [extract_toNat]
    exact Nat.mod_lt _ (Nat.two_pow_pos width)
  · rw [extract_getLsbD, decide_eq_false (Nat.not_lt.2 hk), Bool.false_and]

/-! ### Fields of one byte -/

/-- An extracted value depends on its own bits only (R100). -/
theorem extract_congr {b c : Byte} {o w : Nat} (h : ∀ k, o ≤ k → k < o + w → b.getLsbD k = c.getLsbD k) :
    extract b o w = extract c o w := by
  refine BitVec.eq_of_getLsbD_eq fun k _ => ?_
  rw [extract_getLsbD, extract_getLsbD]
  by_cases hk : k < w
  · rw [h (o + k) (by omega) (by omega)]
  · simp [hk]

/-- Two positions of a table whose fields are apart. -/
theorem apart_of_ne (hT : FieldsApart T) {m n : Nat} (hmn : m ≠ n) (hp : (voicePositions T)[m]? = some p)
    (hq : (voicePositions T)[n]? = some q) : apart p q := by
  obtain ⟨hm, rfl⟩ := List.getElem?_eq_some_iff.1 hp
  obtain ⟨hn, rfl⟩ := List.getElem?_eq_some_iff.1 hq
  rcases Nat.lt_or_gt_of_ne hmn with hlt | hlt
  · exact List.pairwise_iff_getElem.1 hT m n hm hn hlt
  · exact apart_comm (List.pairwise_iff_getElem.1 hT n m hn hm hlt)

/-- Changing the bits of one field of a byte leaves a field that is apart from it (R116 item 5). -/
theorem extract_of_apart {b c : Byte} (h : apart p q) (hbyte : p.byte = q.byte)
    (hbc : ∀ k, (k < q.bit ∨ q.bit + q.width ≤ k) → b.getLsbD k = c.getLsbD k) :
    extract b p.bit p.width = extract c p.bit p.width := by
  refine extract_congr fun k hlo hhi => hbc k ?_
  rcases h with h | h | h
  · exact absurd hbyte h
  · exact Or.inl (by omega)
  · exact Or.inr (by omega)

/-- The raw extraction of a field of the voice record, in the VALID phase. -/
theorem exec_rawField_of_read {voice : BitVec 5} {b : Byte} (hT : Admissible T) (hp : p ∈ voicePositions T)
    (hok : s.status = .ok) (hb : s.buf.read (voiceBase voice.toNat + p.byte) = some b) :
    exec (rawField (voiceBase voice.toNat + p.byte) p) s = .next (s.putRes (extract b p.bit p.width)) := by
  obtain ⟨hin, hbyte⟩ := admissible_voicePositions hT hp
  have hlt : voiceBase voice.toNat + p.byte < 4104 := by
    have := voiceBase_le voice
    omega
  exact (exec_rawField hlt hin s).trans (State.extractField_eq_next.2 (Or.inr ⟨hok, hlt, b, hb, rfl⟩))

/-! ### The obligations -/

/-- Settles O35: `exec_xvf_eq_raw` and `exec_xof_eq_raw`, with the addresses written out. -/
theorem namedExtractionIsRaw : Obligations.NamedExtractionIsRaw := by
  unfold Obligations.NamedExtractionIsRaw
  exact ⟨fun voice field p s hT hp => exec_xvf_eq_raw hT ((voiceFieldPos_eq _ _).trans hp),
    fun voice opr field p s hT ho hp => exec_xof_eq_raw hT ho ((opFieldPos_eq _ _).trans hp)⟩

/-- Settles O36: the field lies in its record, and every record in the payload. -/
theorem namedAddressesStayInVoice : Obligations.NamedAddressesStayInVoice := by
  unfold Obligations.NamedAddressesStayInVoice
  intro T voice hT
  have hrec := voiceRecord_le voice
  have hvoice := voice.isLt
  refine ⟨fun field p hp => ?_, fun opr field p _ hp => ?_⟩
  · obtain ⟨hlo, hhi⟩ := voiceFieldAddr_in_record hT voice hp
    exact ⟨hlo, hhi, by omega⟩
  · obtain ⟨hlo, hhi⟩ := opFieldAddr_in_record hT voice opr hp
    exact ⟨hlo, hhi, by omega⟩

/-- Settles O34: XVF and XOF as O32 and O33 give them, at the default table's numbers. -/
theorem defaultTableExtractions : Obligations.DefaultTableExtractions := by
  unfold Obligations.DefaultTableExtractions
  refine ⟨rfl, fun voice field p s b hT hp hok hb => ?_, fun voice opr field p s b hT ho hp hok hb => ?_⟩
  · have hadm : Admissible s.table := hT ▸ admissible_fieldTable
    exact exec_xvf_of_read hadm (by rw [hT]; exact hp) hok hb
  · have hadm : Admissible s.table := hT ▸ admissible_fieldTable
    have hpos : opFieldPos s.table field = some p := by rw [hT, opFieldPos_eq]; exact hp
    rw [exec_xof_of_pos ho hpos]
    refine extractField_of_read hok (opFieldAddr_lt hadm voice opr hpos) ?_
    rw [hT]
    exact hb

/-- Settles O40: an extraction sees its own bits, which in a table whose fields are apart are no other field's. -/
theorem fieldsIndependent : Obligations.FieldsIndependent := by
  unfold Obligations.FieldsIndependent
  exact ⟨fun b c o w _ h => extract_congr h,
    fun T _ hT m n p q b c hmn hp hq hbyte hbc => extract_of_apart (apart_of_ne hT hmn hp hq) hbyte hbc,
    fieldsApart_fieldTable⟩

/-- Settles O41: a result command raises a fault or writes RES. -/
theorem resultCommandFrames : Obligations.ResultCommandFrames := by
  unfold Obligations.ResultCommandFrames
  intro i s t hi h
  rcases exec_raises_or_putsRes hi h with ⟨c, rfl⟩ | ⟨v, rfl⟩
  · exact ⟨rfl, Or.inl rfl, fun _ => rfl⟩
  · exact ⟨rfl, Or.inr rfl, fun _ => rfl⟩

/-- Settles O42, by `exec_result_after_result`. -/
theorem extractionOrderIrrelevant : Obligations.ExtractionOrderIrrelevant := by
  unfold Obligations.ExtractionOrderIrrelevant
  exact fun i j s t u hi hj _ h ht h' hu => exec_result_after_result hi hj h ht h' hu

/-- Settles O54, item by item. -/
theorem extractionLawsHold : Obligations.ExtractionLawsHold := by
  unfold Obligations.ExtractionLawsHold
  intro s hs
  have hT := hs.tableAdmissible
  refine ⟨⟨fun voice field i hi => ?xvf, fun voice opr field i hi => ?xof⟩,
    fun i w t hw h ht => exec_res_below_width hw h ht, fun i t hi h ht => ?onlyRes,
    fun i j t u hi hj h ht h' hu => ?anyOrder, fun voice field p b hp hok hb => ?operatorMapping,
    fun hapart voice m n p q b c hmn hp hq hbyte hok hb hbc => ?independent, fun i hi hw => ?neverFaults⟩
  case xvf =>
    obtain ⟨p, hp, rfl⟩ := Option.map_eq_some_iff.1 hi
    exact exec_xvf_eq_raw hT hp
  case xof =>
    unfold xofAsXbf at hi
    split_ifs at hi with ho
    obtain ⟨p, hp, rfl⟩ := Option.map_eq_some_iff.1 hi
    exact exec_xof_eq_raw hT (Nat.not_lt.1 ho) hp
  case onlyRes =>
    obtain ⟨v, rfl, hagain⟩ := exec_result_unfaulted (writesRes_of_isExtraction hi) h ht
    exact ⟨rfl, hagain v⟩
  case anyOrder =>
    exact exec_result_after_result (writesRes_of_isExtraction hi) (writesRes_of_isExtraction hj) h ht h' hu
  case operatorMapping =>
    rw [exec_xof_of_pos (by decide) hp]
    exact State.extractField_eq_next.2 (Or.inr ⟨hok, opFieldAddr_lt hT voice 0 hp, b, hb, rfl⟩)
  case independent =>
    have hmem : p ∈ voicePositions s.table := List.mem_of_getElem? hp
    refine ⟨extract b p.bit p.width, exec_rawField_of_read hT hmem hok hb, ?_⟩
    rw [extract_of_apart (apart_of_ne hapart hmn hp hq) hbyte hbc]
    exact exec_rawField_of_read hT hmem hok (Memory.read_write_same _ _ _)
  case neverFaults =>
    refine ⟨fun hok => hs.exec_extraction_of_ok hi hw hok, fun t h => ?_⟩
    obtain ⟨a, bit, width, he⟩ := exec_eq_extractField hi hw s
    exact extractField_fault (he.symm.trans h)

end Sys2Proof.Machine
end
